-- ==== Sys2Proof/Word.lean ====
section
/-!
DEFINITION. The value types of the TSUnit mixing core: the Word (00_scope.md R5, 10_state.md R10), the byte of an input
sequence (20_memory.md R31), and the frame of words that carries a command or a response (30_encoding.md R45).
-/

namespace Sys2Proof

/-- "a 32-bit unsigned integer value, the universal unit of computation in this core" (00_scope.md R5). Its `+`, `-` and `*`
wrap modulo 2^32, as R5 asks; bit `i` has weight 2^i (R6). -/
abbrev Word := BitVec 32

/-- One element of a byte sequence: an 8-bit value, 0 to 255 (20_memory.md R31). -/
abbrev Byte := BitVec 8

/-- "A frame is a finite sequence of 32-bit words `W[0], W[1], ..., W[n-1]`, `W[0]` first" (30_encoding.md R45). -/
abbrev Frame := List Word

end Sys2Proof
end

