-- ==== Sys2Proof/Config.lean ====
section
/-!
DEFINITION. What the spec leaves OPEN (92_eei_decisions.md P1 to P3): the noise table, the scramble pairs and the
generator's default state. `Config.unit` has no body: no proof can see any of its values.
-/

namespace Sys2Proof

/-- The OPEN parameters of one design (00_scope.md R4). They are parameters of the step, not state (10_state.md R11).
DESIGN CHOICE (assumption log 5): a network's 16 ordered pairs, whose 32 positions are all different (10_state.md R15),
are held as one permutation `σ` of the 32 positions, pair `i` being `(σ (2i), σ (2i+1))`. Safe: every legal table is such
a `σ` and every such `σ` gives a legal table, so nothing is assumed beyond R15's constraint. -/
structure Config where
  /-- `NOISE_TABLE[0..31]`: 32 Words, no constraint (10_state.md R14). -/
  noiseTable : Fin 32 → Word
  /-- `SCR_PAIRS[0..3]` as permutations of the bit positions (10_state.md R15). -/
  scrPerm : Fin 4 → Equiv.Perm (Fin 32)
  /-- `GEN_INIT`: the generator's state after reset (10_state.md R13, R22). -/
  genInit : Word
  deriving Inhabited

/-- The parameters of THE unit. The source withholds them (91_not_in_source.md N1, N2, N3), so the constant is opaque:
a theorem about the machine holds for every value of it (assumption log 4, 5, 6; safe). -/
opaque Config.unit : Config

end Sys2Proof
end

