-- ==== Sys2Proof/Machine/Constants.lean ====
section
/-!
DEFINITION. The fixed parameters of 00_scope.md R4, each on one line of its own so that an audit of the source's literals
changes one line (93_implementation_defined.md U9; assumption log 18).
-/

namespace Sys2Proof.Machine

/-- `HASH_INIT`, the initial checksum of every hash and the creation value of `ACC` (10_state.md R16). -/
def hashInit : Word := 0xAC3B843B

/-- `MUL_B`, the multiplier of the byte in line 2 of the mix step (43_hash.md R85). -/
def mulB : Word := 238

/-- `ADD_K`, the constant of line 3 of the mix step (43_hash.md R85). -/
def addK : Word := 1057592071

/-- `ROT_K`, the rotate-right amount of line 3 of the mix step (43_hash.md R85). -/
def rotK : Nat := 15

/-- The two readings of the scramble mechanism (00_scope.md R4 `SCR_FORM`; 90_conflicts.md C1). -/
inductive ScrForm where
  /-- Each pair contributes both relocations (41_scramble.md R72). -/
  | swap
  /-- Each pair contributes the relocation of its first position to its second only (41_scramble.md R78, not taken). -/
  | oneWay
  deriving DecidableEq, Repr

/-- `SCR_FORM`, decided `swap` (90_conflicts.md C1; assumption log 7). -/
def scrForm : ScrForm := .swap

end Sys2Proof.Machine
end

