-- ==== Sys2Proof/Syntax.lean ====
section
/-!
DEFINITION. The 13 commands (30_encoding.md R44), one constructor per row of spec/opcode_table.json, and the causes for
which a frame spells none (60_exceptions.md R112).
-/

namespace Sys2Proof

/-- A command with its operands, each a full Word taken as it stands (30_encoding.md R47) or a byte sequence
(20_memory.md R31). -/
inductive Instr where
  /-- `ROTL w, amt` (40_rotation.md R62). -/
  | rotl (w amt : Word)
  /-- `ROTR w, amt` (40_rotation.md R63). -/
  | rotr (w amt : Word)
  /-- `SCR0 x` (41_scramble.md R74). -/
  | scr0 (x : Word)
  /-- `SCR1 x` (41_scramble.md R75). -/
  | scr1 (x : Word)
  /-- `SCR2 x` (41_scramble.md R76). -/
  | scr2 (x : Word)
  /-- `SCR3 x` (41_scramble.md R77). -/
  | scr3 (x : Word)
  /-- `NOISE i` (42_noise.md R81). -/
  | noise (i : Word)
  /-- `HASH bytes` (43_hash.md R87). -/
  | hash (bytes : List Byte)
  /-- `AINIT` (44_accumulator.md R92). -/
  | ainit
  /-- `AADD bytes` (44_accumulator.md R93). -/
  | aadd (bytes : List Byte)
  /-- `AVAL` (44_accumulator.md R94). -/
  | aval
  /-- `SEED v` (45_generator.md R100). -/
  | seed (v : Word)
  /-- `NEXT` (45_generator.md R101). -/
  | next
  deriving DecidableEq, Repr

/-- Why a frame is ILLEGAL (60_exceptions.md R112). -/
inductive IllCause where
  /-- `ILL_OPCODE`: `W[0][7:0]` is not one of the 13 assigned opcodes. -/
  | opcode
  /-- `ILL_RESERVED`: the opcode is assigned and `W[0][31:8] != 0`. -/
  | reserved
  /-- `ILL_LENGTH`: the frame is empty, or its word count is not the one the format requires. -/
  | length
  /-- `ILL_PAD`: a pad byte of the last payload word is not zero. -/
  | pad
  deriving DecidableEq, Repr

end Sys2Proof
end

