-- ==== Sys2Proof/Machine/State.lean ====
section
/-!
DEFINITION. The state of the unit, `(ACC, GEN)` (10_state.md R11), with the host's side of its interface as plain data
(70_reset_and_hazards.md R124), the response of a command (30_encoding.md R53), and the reasons a step could stop.
-/

namespace Sys2Proof.Machine

/-- What the host can do to the unit (70_reset_and_hazards.md R124). DESIGN CHOICE (assumption log 1, 11): each
interaction is one event, so that reset is "one more event in the total order" (R123). -/
inductive HostEvent where
  /-- One whole command frame, with its word count (30_encoding.md R45). -/
  | frame (ws : Frame)
  /-- Reset while the unit is idle (70_reset_and_hazards.md R120). -/
  | reset
  /-- Reset while the command of this frame is in progress: frame taken, response not yet sent (70_reset_and_hazards.md
  R123). -/
  | resetDuring (ws : Frame)
  deriving DecidableEq, Repr

/-- The answer to a command frame (30_encoding.md R53). -/
inductive Response where
  /-- The command finished and returns no value. -/
  | done
  /-- The command finished; the result Word. -/
  | value (v : Word)
  /-- The frame spelled no command, for this cause. -/
  | illegal (c : IllCause)
  deriving DecidableEq, Repr

/-- Why the machine would stop with a fault: never. "No legal command raises an exception" (60_exceptions.md R110), and
an ILLEGAL frame is answered, not a stop (R111). No constructor, so nobody raises one; safe (assumption log 14). -/
inductive Fault where
  deriving DecidableEq, Repr

/-- Why an instruction would have no meaning. -/
inductive Refusal where
  /-- Raised by an arm of `exec` whose instruction has no meaning yet; no arm does. Safe. -/
  | notModelled (mnemonic : String)
  deriving DecidableEq, Repr

/-- The state. `acc` and `gen` are the whole mutable state of the unit (10_state.md R11, R20); `inbox` and `outbox` are
the model's own record of the host's interface, which no command reads (assumption log 1, 2). -/
structure State where
  /-- `ACC`, the streaming accumulator's checksum (10_state.md R12). -/
  acc : Word
  /-- `GEN`, the generator state (10_state.md R13). -/
  gen : Word
  /-- The events the host has still to give the unit, in their order of arrival (20_memory.md R38). -/
  inbox : List HostEvent
  /-- The response frames the unit has sent, oldest first (20_memory.md R38). -/
  outbox : List Frame
  deriving DecidableEq, Repr

/-- The state right after reset (10_state.md R22, 70_reset_and_hazards.md R120): `ACC = HASH_INIT`, `GEN = GEN_INIT`, the
OPEN parameter (assumption log 6). DESIGN CHOICE (assumption log 1, 2): no event pending, no response sent. -/
def State.reset : State where
  acc := hashInit
  gen := Config.unit.genInit
  inbox := []
  outbox := []

end Sys2Proof.Machine
end

