-- ==== Sys2Proof/Machine/Flags.lean ====
section
/-!
DEFINITION. The status a command leaves behind. The unit keeps no flags (10_state.md R19): a command's whole status is the
word `R[0]` of its response frame (30_encoding.md R53) and, for an ILLEGAL frame, its cause code (60_exceptions.md R112).
-/

namespace Sys2Proof.Machine

/-- The cause codes (60_exceptions.md R112). -/
def causeCode : IllCause → Byte
  | .opcode => 0x01
  | .reserved => 0x02
  | .length => 0x03
  | .pad => 0x04

/-- Field `ST` of `R[0]`, bits 7:0 (30_encoding.md R53). -/
def Response.status : Response → Byte
  | .done => 0x00
  | .value _ => 0x01
  | .illegal _ => 0xFF

/-- Field `CAUSE` of `R[0]`, bits 15:8 (30_encoding.md R53). -/
def Response.cause : Response → Byte
  | .done => 0x00
  | .value _ => 0x00
  | .illegal c => causeCode c

/-- Word `R[0]`: bits 31:16 zero, then `CAUSE`, then `ST` (30_encoding.md R53). -/
def Response.statusWord (r : Response) : Word := (r.cause.setWidth 32 <<< 8) ||| r.status.setWidth 32

/-- The response frame: `R[1]` exists only for VALUE (30_encoding.md R53). -/
def Response.frame (r : Response) : Frame :=
  match r with
  | .done => [r.statusWord]
  | .value v => [r.statusWord, v]
  | .illegal _ => [r.statusWord]

end Sys2Proof.Machine
end

