-- ==== Sys2Proof/WellFormed.lean ====
section
/-!
DEFINITION. Which commands one frame can carry: a byte sequence of 0 to 2^32-1 bytes (30_encoding.md R48). Every other
operand value of every command is accepted (30_encoding.md R52).
-/

namespace Sys2Proof

/-- The byte sequence a command carries: the payload of `HASH` and `AADD`, none of any other (30_encoding.md R47). -/
def Instr.payload : Instr → List Byte
  | .rotl _ _ => []
  | .rotr _ _ => []
  | .scr0 _ => []
  | .scr1 _ => []
  | .scr2 _ => []
  | .scr3 _ => []
  | .noise _ => []
  | .hash bytes => bytes
  | .ainit => []
  | .aadd bytes => bytes
  | .aval => []
  | .seed _ => []
  | .next => []

/-- The command has a legal frame: its payload's length fits the length word `L` (30_encoding.md R48; 00_scope.md R4
`LEN_BITS`). -/
abbrev Instr.wf (i : Instr) : Prop := i.payload.length < 2 ^ 32

end Sys2Proof
end

