-- ==== Sys2Proof/Decode.lean ====
section
/-!
DEFINITION. The command encoding of 30_encoding.md: the opcode map (R50), the formats (R47, R48), the packing of payload
bytes (R49), the decoder, total on every list of words (R51), and after it the encoder written from the same tables.
-/

namespace Sys2Proof

/-- The 13 assigned opcodes, by mnemonic (30_encoding.md R50). -/
inductive Op where
  | rotl | rotr | scr0 | scr1 | scr2 | scr3 | noise | hash | ainit | aadd | aval | seed | next
  deriving DecidableEq, Repr

/-- The four formats (30_encoding.md R47): no operand, one Word, two Words, a byte sequence. -/
inductive Format where
  | f0 | f1 | f2 | fb
  deriving DecidableEq, Repr

/-- The value of the header's `OP` field (30_encoding.md R50). -/
def Op.code : Op → Byte
  | .rotl => 0x01
  | .rotr => 0x02
  | .scr0 => 0x04
  | .scr1 => 0x05
  | .scr2 => 0x06
  | .scr3 => 0x07
  | .noise => 0x08
  | .hash => 0x10
  | .ainit => 0x20
  | .aadd => 0x21
  | .aval => 0x22
  | .seed => 0x30
  | .next => 0x31

/-- The format column of 30_encoding.md R50. -/
def Op.format : Op → Format
  | .rotl | .rotr => .f2
  | .scr0 | .scr1 | .scr2 | .scr3 | .noise | .seed => .f1
  | .hash | .aadd => .fb
  | .ainit | .aval | .next => .f0

/-- The rows of the opcode map in the order of 30_encoding.md R50. -/
def Op.all : List Op :=
  [.rotl, .rotr, .scr0, .scr1, .scr2, .scr3, .noise, .hash, .ainit, .aadd, .aval, .seed, .next]

/-- Look an `OP` value up in the map; `none` for a reserved one (30_encoding.md R50). -/
def Op.ofCode (b : Byte) : Option Op := Op.all.find? fun o => o.code == b

/-- Header field `OP`, bits 7:0 (30_encoding.md R46). -/
def headerOp (h : Word) : Byte := h.extractLsb' 0 8

/-- Header field `RSV`, bits 31:8 (30_encoding.md R46). -/
def headerRsv (h : Word) : BitVec 24 := h.extractLsb' 8 24

/-- The header word of an opcode: `OP` with all reserved bits zero (30_encoding.md R46). -/
def header (o : Op) : Word := o.code.setWidth 32

/-- `ceil(L/4)`, "computed without 32-bit overflow: it is `(L div 4)` plus 1 if `L mod 4 != 0`" (30_encoding.md R51). -/
def payloadWords (L : Nat) : Nat := L / 4 + if L % 4 ≠ 0 then 1 else 0

/-- The word count a format requires; for FB it depends on the length word (30_encoding.md R47, R48). -/
def Format.words (f : Format) (L : Nat) : Nat :=
  match f with
  | .f0 => 1
  | .f1 => 2
  | .f2 => 3
  | .fb => 2 + payloadWords L

/-- Byte `j` of a Word: bits `8*j + 7 : 8*j` (30_encoding.md R49). -/
def wordByte (w : Word) (j : Nat) : Byte := w.extractLsb' (8 * j) 8

/-- The four bytes of a Word, least significant byte first (20_memory.md R33, R34; assumption log 8). -/
def wordBytes (w : Word) : List Byte := [wordByte w 0, wordByte w 1, wordByte w 2, wordByte w 3]

/-- The Word whose four bytes, least significant first, are given (20_memory.md R33). -/
def wordOfBytes (b0 b1 b2 b3 : Byte) : Word :=
  b0.setWidth 32 ||| (b1.setWidth 32 <<< 8) ||| (b2.setWidth 32 <<< 16) ||| (b3.setWidth 32 <<< 24)

/-- The `L` payload bytes of the payload words: byte `i` is byte `i mod 4` of word `i div 4` (30_encoding.md R49). -/
def unpack (L : Nat) : List Word → List Byte
  | [] => []
  | w :: ws => (wordBytes w).take L ++ unpack (L - 4) ws

/-- The payload words of a byte sequence: four bytes to a word, least significant first, zero pad (30_encoding.md R49). -/
def pack : List Byte → List Word
  | [] => []
  | [b0] => [wordOfBytes b0 0 0 0]
  | [b0, b1] => [wordOfBytes b0 b1 0 0]
  | [b0, b1, b2] => [wordOfBytes b0 b1 b2 0]
  | b0 :: b1 :: b2 :: b3 :: rest => wordOfBytes b0 b1 b2 b3 :: pack rest

/-- A pad byte of the last payload word is not zero (30_encoding.md R51, step 5). -/
def padBad (L : Nat) (last : Word) : Bool := L % 4 != 0 && last >>> (8 * (L % 4)) != 0

/-- What a frame spells: a command, or none for a named cause (30_encoding.md R52). -/
inductive Decoded where
  | command (i : Instr)
  | illegal (c : IllCause)
  deriving DecidableEq, Repr

/-- Format F0: the header alone (30_encoding.md R51, step 5). -/
def decodeF0 (i : Instr) : List Word → Decoded
  | [] => .command i
  | _ => .illegal .length

/-- Format F1: one operand Word (30_encoding.md R51, step 5). -/
def decodeF1 (mk : Word → Instr) : List Word → Decoded
  | [a] => .command (mk a)
  | _ => .illegal .length

/-- Format F2: two operand Words (30_encoding.md R51, step 5). -/
def decodeF2 (mk : Word → Word → Instr) : List Word → Decoded
  | [w, amt] => .command (mk w amt)
  | _ => .illegal .length

/-- Format FB: the length word, then exactly `ceil(L/4)` payload words, then the pad check (30_encoding.md R51, step 5). -/
def decodeFB (mk : List Byte → Instr) : List Word → Decoded
  | [] => .illegal .length
  | l :: payload =>
    if payload.length ≠ payloadWords l.toNat then .illegal .length
    else if padBad l.toNat (payload.getLastD 0) then .illegal .pad
    else .command (mk (unpack l.toNat payload))

/-- Step 5 of 30_encoding.md R51: the operands of an assigned opcode, from the words after the header. -/
def decodeOperands (o : Op) (ws : List Word) : Decoded :=
  match o with
  | .rotl => decodeF2 .rotl ws
  | .rotr => decodeF2 .rotr ws
  | .scr0 => decodeF1 .scr0 ws
  | .scr1 => decodeF1 .scr1 ws
  | .scr2 => decodeF1 .scr2 ws
  | .scr3 => decodeF1 .scr3 ws
  | .noise => decodeF1 .noise ws
  | .hash => decodeFB .hash ws
  | .ainit => decodeF0 .ainit ws
  | .aadd => decodeFB .aadd ws
  | .aval => decodeF0 .aval ws
  | .seed => decodeF1 .seed ws
  | .next => decodeF0 .next ws

/-- The decoder: the steps of 30_encoding.md R51 in their order, the first that fails deciding the cause, which is also the
priority of 60_exceptions.md R114. -/
def decode : Frame → Decoded
  | [] => .illegal .length
  | h :: ws =>
    match Op.ofCode (headerOp h) with
    | none => .illegal .opcode
    | some o => if headerRsv h ≠ 0 then .illegal .reserved else decodeOperands o ws

/-- The opcode of a command (30_encoding.md R50). -/
def Instr.op : Instr → Op
  | .rotl _ _ => .rotl
  | .rotr _ _ => .rotr
  | .scr0 _ => .scr0
  | .scr1 _ => .scr1
  | .scr2 _ => .scr2
  | .scr3 _ => .scr3
  | .noise _ => .noise
  | .hash _ => .hash
  | .ainit => .ainit
  | .aadd _ => .aadd
  | .aval => .aval
  | .seed _ => .seed
  | .next => .next

/-- The words of format FB after the header: the length word, then the payload (30_encoding.md R48). -/
def encodeBytes (bytes : List Byte) : List Word := BitVec.ofNat 32 bytes.length :: pack bytes

/-- The words after the header (30_encoding.md R47). -/
def encodeOperands : Instr → List Word
  | .rotl w amt => [w, amt]
  | .rotr w amt => [w, amt]
  | .scr0 x => [x]
  | .scr1 x => [x]
  | .scr2 x => [x]
  | .scr3 x => [x]
  | .noise i => [i]
  | .hash bytes => encodeBytes bytes
  | .ainit => []
  | .aadd bytes => encodeBytes bytes
  | .aval => []
  | .seed v => [v]
  | .next => []

/-- The one legal frame of a command (30_encoding.md R49: "every command has exactly one legal frame"). -/
def encode (i : Instr) : Frame := header i.op :: encodeOperands i

/-- The frame whose bits are `w`, bit 0 the least significant bit of `W[0]`, words counted on from it. The opcode table
gives a row only its header's 32 bits, so the frame is filled up with zero words to the count that the header's format
requires (an operand word of zeros each, a payload of length 0); a header of no assigned opcode is left as it is.
DESIGN CHOICE (assumption log 12): the word count of a frame comes from the transport, not from its bits. -/
def tableFrame (nbits w : Nat) : Frame :=
  let ws := (List.range ((nbits + 31) / 32)).map fun k => BitVec.ofNat 32 (w % 2 ^ nbits / 2 ^ (32 * k))
  let need := match Op.ofCode (headerOp (ws.headD 0)) with
    | none => 0
    | some o => o.format.words (ws.getD 1 0).toNat
  ws ++ List.replicate (need - ws.length) 0

/-- The command this decoder reads from a frame given as one number (assumption log 12). -/
def decodeTableWord (nbits w : Nat) : Option Instr :=
  match decode (tableFrame nbits w) with
  | .command i => some i
  | .illegal _ => none

end Sys2Proof
end

