-- ==== Sys2Proof/Machine/Operands.lean ====
section
/-!
DEFINITION. The operand forms of the commands: a full Word taken as it stands (30_encoding.md R47), a rotation amount
(40_rotation.md R66), a byte widened to a Word (20_memory.md R32), and the 4-byte view of a Word (20_memory.md R34).
-/

namespace Sys2Proof.Machine

/-- The effective amount `e = amt[4:0]`, "its low five bits" (40_rotation.md R66; assumption log 10). -/
def rotAmount (amt : Word) : Nat := (amt.extractLsb' 0 5).toNat

/-- `zext_32(b)`: "A byte enters arithmetic as the Word `zext_32(b)`, value 0 to 255" (20_memory.md R32; assumption
log 9). -/
def zext32 (b : Byte) : Word := b.setWidth 32

/-- `bytes4(w)`, least significant byte first (20_memory.md R34; assumption log 8). -/
def bytes4 (w : Word) : List Byte := wordBytes w

/-- The table index of the noise function, the low five bits (42_noise.md R80). -/
def tableIndex (i : Word) : Fin 32 := Fin.ofNat 32 (i &&& 0x1F#32).toNat

/-- The network index of the noise function, the low two bits (42_noise.md R80). -/
def funcIndex (i : Word) : Fin 4 := Fin.ofNat 4 (i &&& 0x3#32).toNat

end Sys2Proof.Machine
end

