-- ==== Sys2Proof/Machine/Ops.lean ====
section
/-!
DEFINITION. The shared operations: the pure word functions (rotation, scramble, noise, mix, fold), taking the OPEN
parameters as an argument, and the operations on State (answering a frame, the ILLEGAL response, reset, taking the next
event).
-/

namespace Sys2Proof.Machine

/-- `rotl(w, n)` (40_rotation.md R60). -/
def rotl (w : Word) (n : Nat) : Word :=
  let e := n % 32
  if e = 0 then w else (w <<< e) ||| (w >>> (32 - e))

/-- `rotr(w, n)` (40_rotation.md R61). -/
def rotr (w : Word) (n : Nat) : Word :=
  let e := n % 32
  if e = 0 then w else (w >>> e) ||| (w <<< (32 - e))

/-- `bit(x, i) = (x >> i) & 1` (00_scope.md R6). -/
def bit (x : Word) (i : Fin 32) : Word := (x >>> i.val) &&& 1#32

/-- `rel(x, s, d) = bit(x, s) << d`: bit `s` moved to position `d`, the other bits zero (41_scramble.md R70). -/
def rel (x : Word) (s d : Fin 32) : Word := bit x s <<< d.val

/-- `SCR_PAIRS[k]`: the 16 ordered pairs of a network (10_state.md R15; assumption log 5). -/
def pairsOf (σ : Equiv.Perm (Fin 32)) : List (Fin 32 × Fin 32) :=
  (List.finRange 16).map fun i => (σ ⟨2 * i.val, by omega⟩, σ ⟨2 * i.val + 1, by omega⟩)

/-- `SCR_PAIRS[k]` of a configuration (10_state.md R15). -/
def scrPairs (c : Config) (k : Fin 4) : List (Fin 32 × Fin 32) := pairsOf (c.scrPerm k)

/-- What one pair contributes: `swap(x, p, q)` (41_scramble.md R71) or, in the form not taken, `rel(x, p, q)` (R78). -/
def contribution (form : ScrForm) (x : Word) (pq : Fin 32 × Fin 32) : Word :=
  match form with
  | .swap => rel x pq.1 pq.2 ||| rel x pq.2 pq.1
  | .oneWay => rel x pq.1 pq.2

/-- The OR of the contributions of a list of pairs (41_scramble.md R72, R78). -/
def network (form : ScrForm) (x : Word) : List (Fin 32 × Fin 32) → Word
  | [] => 0
  | pq :: rest => contribution form x pq ||| network form x rest

/-- `S(k, x)`: scramble network `k` applied to `x` (41_scramble.md R72). -/
def scramble (c : Config) (k : Fin 4) (x : Word) : Word := network scrForm x (scrPairs c k)

/-- `noise(i)`: both selectors are taken from the index, the constant is subtracted from it (42_noise.md R80). -/
def noise (c : Config) (i : Word) : Word := scramble c (funcIndex i) (i - c.noiseTable (tableIndex i))

/-- `mix(cs, b)`, the three lines of the mix step in their order (43_hash.md R85). -/
def mix (c : Config) (cs : Word) (b : Byte) : Word :=
  let cs1 := cs + noise c ((zext32 b >>> 4) + cs)
  let cs2 := cs1 + noise c (cs1 + zext32 b * mulB)
  cs2 ^^^ noise c (rotr (addK + zext32 b) rotK)

/-- `fold(cs, B)`: `mix` over `B` from the left (43_hash.md R86). -/
def fold (c : Config) (cs : Word) : List Byte → Word
  | [] => cs
  | b :: rest => fold c (mix c cs b) rest

/-- `hash(B) = fold(HASH_INIT, B)` (43_hash.md R86); no finalisation (R90). -/
def hashOf (c : Config) (B : List Byte) : Word := fold c hashInit B

/-- The generator's successor: the state plus the hash of its own four bytes (45_generator.md R101, R102). -/
def genStep (c : Config) (g : Word) : Word := g + hashOf c (bytes4 g)

/-- `ACC <- v` (00_scope.md R7). -/
def State.setAcc (s : State) (v : Word) : State := { s with acc := v }

/-- `GEN <- v` (00_scope.md R7). -/
def State.setGen (s : State) (v : Word) : State := { s with gen := v }

/-- Send one response frame; responses leave in the order of their commands (20_memory.md R38, 30_encoding.md R53). -/
def State.respond (s : State) (r : Response) : State := { s with outbox := s.outbox ++ [r.frame] }

/-- The one failure of the unit: an ILLEGAL frame changes no state, executes nothing, saves nothing, and is answered with
its cause; the unit then takes the next frame as usual (60_exceptions.md R111, R115). There is no return from it (R116). -/
def answerIllegal (c : IllCause) (s : State) : State := s.respond (.illegal c)

/-- Reset: `ACC <- HASH_INIT`, `GEN <- GEN_INIT`; the tables are unaffected and no response is sent
(70_reset_and_hazards.md R120, R124). -/
def applyReset (s : State) : State := (s.setAcc hashInit).setGen Config.unit.genInit

/-- Reset while the command of frame `ws` is in progress: it "is abandoned: it gets no response, and after reset the state
is the reset state whatever part of the command had been done" (70_reset_and_hazards.md R123). -/
def abandonByReset (_ws : Frame) (s : State) : State := applyReset s

/-- Take the oldest pending event of the host, if there is one (20_memory.md R38). -/
def takeEvent (s : State) : Option (HostEvent × State) :=
  match s.inbox with
  | [] => none
  | e :: rest => some (e, { s with inbox := rest })

/-- Put a command frame where the next step takes its event. -/
def State.deliverNext (s : State) (ws : Frame) : State := { s with inbox := .frame ws :: s.inbox }

end Sys2Proof.Machine
end

