-- ==== Sys2Proof/Machine/Accumulator.lean ====
section
/-!
DEFINITION. The streaming accumulator's commands (44_accumulator.md).
-/

namespace Sys2Proof.Machine

/-- `AINIT`: `ACC <- HASH_INIT`, `respond DONE` (44_accumulator.md R92). -/
def execAinit (s : State) : Host.Outcome State Fault Refusal :=
  .next ((s.setAcc hashInit).respond .done)

/-- `AADD bytes`: `ACC <- fold(ACC, B)`, `respond DONE` (44_accumulator.md R93). -/
def execAadd (bytes : List Byte) (s : State) : Host.Outcome State Fault Refusal :=
  .next ((s.setAcc (fold Config.unit s.acc bytes)).respond .done)

/-- `AVAL`: `respond VALUE(ACC)`; no state written (44_accumulator.md R94). -/
def execAval (s : State) : Host.Outcome State Fault Refusal :=
  .next (s.respond (.value s.acc))

end Sys2Proof.Machine
end

