-- ==== Sys2Proof/Machine/Generator.lean ====
section
/-!
DEFINITION. The seeded generator's commands (45_generator.md).
-/

namespace Sys2Proof.Machine

/-- `SEED v`: `GEN <- v`, `respond DONE` (45_generator.md R100). -/
def execSeed (v : Word) (s : State) : Host.Outcome State Fault Refusal :=
  .next ((s.setGen v).respond .done)

/-- `NEXT`: `GEN <- g + h` with `h` the hash of the four bytes of `g`, `respond VALUE(g + h)`, the new state
(45_generator.md R101). -/
def execNext (s : State) : Host.Outcome State Fault Refusal :=
  .next ((s.setGen (genStep Config.unit s.gen)).respond (.value (genStep Config.unit s.gen)))

end Sys2Proof.Machine
end

