-- ==== Sys2Proof/Machine/Hash.lean ====
section
/-!
DEFINITION. The one-shot hash command (43_hash.md).
-/

namespace Sys2Proof.Machine

/-- `HASH bytes`: `respond VALUE(fold(HASH_INIT, B))`; the working checksum is no state (43_hash.md R87, 10_state.md
R21). -/
def execHash (bytes : List Byte) (s : State) : Host.Outcome State Fault Refusal :=
  .next (s.respond (.value (hashOf Config.unit bytes)))

end Sys2Proof.Machine
end

