-- ==== Sys2Proof/Machine/Noise.lean ====
section
/-!
DEFINITION. The noise command (42_noise.md).
-/

namespace Sys2Proof.Machine

/-- `NOISE i`: `respond VALUE(noise(i))`; no state written (42_noise.md R81). -/
def execNoise (i : Word) (s : State) : Host.Outcome State Fault Refusal :=
  .next (s.respond (.value (noise Config.unit i)))

end Sys2Proof.Machine
end

