-- ==== Sys2Proof/Machine/Rotation.lean ====
section
/-!
DEFINITION. The rotation commands (40_rotation.md).
-/

namespace Sys2Proof.Machine

/-- `ROTL w, amt`: `respond VALUE(rotl(w, amt[4:0]))`; no state written (40_rotation.md R62). -/
def execRotl (w amt : Word) (s : State) : Host.Outcome State Fault Refusal :=
  .next (s.respond (.value (rotl w (rotAmount amt))))

/-- `ROTR w, amt`: `respond VALUE(rotr(w, amt[4:0]))`; no state written (40_rotation.md R63). -/
def execRotr (w amt : Word) (s : State) : Host.Outcome State Fault Refusal :=
  .next (s.respond (.value (rotr w (rotAmount amt))))

end Sys2Proof.Machine
end

