-- ==== Sys2Proof/Machine/Scramble.lean ====
section
/-!
DEFINITION. The scramble commands (41_scramble.md).
-/

namespace Sys2Proof.Machine

/-- `SCR0 x`: `respond VALUE(S(0, x))`; no state written (41_scramble.md R74). -/
def execScr0 (x : Word) (s : State) : Host.Outcome State Fault Refusal :=
  .next (s.respond (.value (scramble Config.unit 0 x)))

/-- `SCR1 x`: `respond VALUE(S(1, x))`; no state written (41_scramble.md R75). -/
def execScr1 (x : Word) (s : State) : Host.Outcome State Fault Refusal :=
  .next (s.respond (.value (scramble Config.unit 1 x)))

/-- `SCR2 x`: `respond VALUE(S(2, x))`; no state written (41_scramble.md R76). -/
def execScr2 (x : Word) (s : State) : Host.Outcome State Fault Refusal :=
  .next (s.respond (.value (scramble Config.unit 2 x)))

/-- `SCR3 x`: `respond VALUE(S(3, x))`; no state written (41_scramble.md R77). -/
def execScr3 (x : Word) (s : State) : Host.Outcome State Fault Refusal :=
  .next (s.respond (.value (scramble Config.unit 3 x)))

end Sys2Proof.Machine
end

