-- ==== Sys2Proof/Machine/Dispatch.lean ====
section
/-!
DEFINITION. The dispatch: one arm per command, each one call of its meaning.
-/

namespace Sys2Proof.Machine

/-- Execute one command. -/
def exec (i : Instr) (s : State) : Host.Outcome State Fault Refusal :=
  match i with
  | .rotl w amt => Sys2Proof.Machine.execRotl w amt s
  | .rotr w amt => Sys2Proof.Machine.execRotr w amt s
  | .scr0 x => Sys2Proof.Machine.execScr0 x s
  | .scr1 x => Sys2Proof.Machine.execScr1 x s
  | .scr2 x => Sys2Proof.Machine.execScr2 x s
  | .scr3 x => Sys2Proof.Machine.execScr3 x s
  | .noise idx => Sys2Proof.Machine.execNoise idx s
  | .hash bytes => Sys2Proof.Machine.execHash bytes s
  | .ainit => Sys2Proof.Machine.execAinit s
  | .aadd bytes => Sys2Proof.Machine.execAadd bytes s
  | .aval => Sys2Proof.Machine.execAval s
  | .seed v => Sys2Proof.Machine.execSeed v s
  | .next => Sys2Proof.Machine.execNext s

end Sys2Proof.Machine
end

