-- ==== Sys2Proof/Machine/Step.lean ====
section
/-!
DEFINITION. One step of the unit: take the oldest event of the host and act on it (20_memory.md R36, R38).
-/

namespace Sys2Proof.Machine

/-- One step. A frame is decoded and its command executed, or it is answered ILLEGAL; a reset resets; with no event
pending the unit "is idle between frames and keeps `ACC` and `GEN`" (60_exceptions.md R118; DEDUCED, assumption log 3). -/
def step (s : State) : Host.Outcome State Fault Refusal :=
  match takeEvent s with
  | none => .next s
  | some (.frame ws, s') =>
    match decode ws with
    | .command i => exec i s'
    | .illegal c => .next (answerIllegal c s')
  | some (.reset, s') => .next (applyReset s')
  | some (.resetDuring ws, s') => .next (abandonByReset ws s')

/-- `s` with the frame whose bits are `w` (see `tableFrame`) as the next event of the host, so that the very next step
takes it (assumption log 12). -/
def State.withFetchWord (s : State) (nbits w : Nat) : State := s.deliverNext (tableFrame nbits w)

end Sys2Proof.Machine
end

