-- ==== Sys2Proof/Machine/Assembler.lean ====
section
/-!
DEFINITION. The assembler notation of 30_encoding.md R54: reading one line of text as a command (with the response a
listing may write after it), and printing a command and a response. It is a notation of the host's; the unit itself takes
frames only. What R54 leaves open is settled in assumption log 17. Text is a list of characters.
-/

namespace Sys2Proof.Machine.Asm

/-- What one line of text is. -/
inductive Line where
  /-- White space or a comment only. -/
  | blank
  /-- A command, and the response written after `->`, if one is. -/
  | command (i : Instr) (response : Option Response)
  /-- Anything else. -/
  | bad
  deriving DecidableEq, Repr

/-- White space within a line. -/
def isSpace (c : Char) : Bool := c == ' ' || c == '\t'

/-- A character of a mnemonic or of a literal. -/
def isWordChar (c : Char) : Bool := c.isAlphanum

/-- The text without its leading white space. -/
def skipSpace (cs : List Char) : List Char := cs.dropWhile isSpace

/-- The opening bracket of a byte list. -/
def lbrace : Char := Char.ofNat 0x7B

/-- The closing bracket of a byte list. -/
def rbrace : Char := Char.ofNat 0x7D

/-- The value of a digit, either case. -/
def digitVal (c : Char) : Option Nat :=
  let n := c.toNat
  if 0x30 ≤ n ∧ n ≤ 0x39 then some (n - 0x30)
  else if 0x41 ≤ n ∧ n ≤ 0x46 then some (n - 0x41 + 10)
  else if 0x61 ≤ n ∧ n ≤ 0x66 then some (n - 0x61 + 10)
  else none

/-- Read the digits of a number in a base, continuing from `acc`. -/
def digitsFrom (base : Nat) (acc : Nat) : List Char → Option Nat
  | [] => some acc
  | c :: cs =>
    match digitVal c with
    | none => none
    | some d => if d < base then digitsFrom base (acc * base + d) cs else none

/-- A number of at least one digit. -/
def digits (base : Nat) (cs : List Char) : Option Nat := if cs = [] then none else digitsFrom base 0 cs

/-- A decimal number, or a hexadecimal one with `0x` (case-insensitive) (30_encoding.md R54). -/
def number (cs : List Char) : Option Nat :=
  match cs with
  | '0' :: 'x' :: ds => digits 16 ds
  | '0' :: 'X' :: ds => digits 16 ds
  | ds => digits 10 ds

/-- A number below a bound, and the text after it. -/
def numberBelow (bound : Nat) (cs : List Char) : Option (Nat × List Char) :=
  match number (cs.takeWhile isWordChar) with
  | none => none
  | some n => if n < bound then some (n, cs.dropWhile isWordChar) else none

/-- A word literal: a number, or "a decimal with a minus sign, which stands for its two's complement modulo 2^32"
(30_encoding.md R54). -/
def wordLiteral (cs : List Char) : Option (Word × List Char) :=
  match skipSpace cs with
  | '-' :: ds =>
    match digits 10 (ds.takeWhile isWordChar) with
    | none => none
    | some n => some (-BitVec.ofNat 32 n, ds.dropWhile isWordChar)
  | ds =>
    match numberBelow (2 ^ 32) ds with
    | none => none
    | some (n, rest) => some (BitVec.ofNat 32 n, rest)

/-- A byte literal, 0 to 255 (30_encoding.md R54). -/
def byteLiteral (cs : List Char) : Option (Byte × List Char) :=
  match numberBelow 256 (skipSpace cs) with
  | none => none
  | some (n, rest) => some (BitVec.ofNat 8 n, rest)

/-- A printable ASCII character (30_encoding.md R54). -/
def isPrintable (c : Char) : Bool := 0x20 ≤ c.toNat && c.toNat ≤ 0x7E

/-- The characters of a string up to its closing quote: "each character one byte with its ASCII code ... and no
terminator" (30_encoding.md R54). -/
def stringBody : List Char → Option (List Byte × List Char)
  | [] => none
  | c :: cs =>
    if c = '"' then some ([], cs)
    else if isPrintable c then
      match stringBody cs with
      | none => none
      | some (bs, rest) => some (BitVec.ofNat 8 c.toNat :: bs, rest)
    else none

/-- The rest of a brace list after one of its bytes: a comma and a byte, again and again, then the closing brace. The fuel
is the length of the text, which every round shortens. -/
def braceTail : Nat → List Char → Option (List Byte × List Char)
  | 0, _ => none
  | fuel + 1, cs =>
    match skipSpace cs with
    | [] => none
    | c :: ds =>
      if c = rbrace then some ([], ds)
      else if c = ',' then
        match byteLiteral ds with
        | none => none
        | some (b, es) =>
          match braceTail fuel es with
          | none => none
          | some (bs, rest) => some (b :: bs, rest)
      else none

/-- A brace list after its opening brace (30_encoding.md R54). -/
def braceBody (cs : List Char) : Option (List Byte × List Char) :=
  match skipSpace cs with
  | [] => none
  | c :: ds =>
    if c = rbrace then some ([], ds)
    else
      match byteLiteral (c :: ds) with
      | none => none
      | some (b, es) =>
        match braceTail (es.length + 1) es with
        | none => none
        | some (bs, rest) => some (b :: bs, rest)

/-- A byte list: a string or a brace list (30_encoding.md R54). -/
def byteList (cs : List Char) : Option (List Byte × List Char) :=
  match skipSpace cs with
  | [] => none
  | c :: ds => if c = '"' then stringBody ds else if c = lbrace then braceBody ds else none

/-- The mnemonics of 30_encoding.md R50, letter for letter. -/
def mnemonic : Op → List Char
  | .rotl => ['R', 'O', 'T', 'L']
  | .rotr => ['R', 'O', 'T', 'R']
  | .scr0 => ['S', 'C', 'R', '0']
  | .scr1 => ['S', 'C', 'R', '1']
  | .scr2 => ['S', 'C', 'R', '2']
  | .scr3 => ['S', 'C', 'R', '3']
  | .noise => ['N', 'O', 'I', 'S', 'E']
  | .hash => ['H', 'A', 'S', 'H']
  | .ainit => ['A', 'I', 'N', 'I', 'T']
  | .aadd => ['A', 'A', 'D', 'D']
  | .aval => ['A', 'V', 'A', 'L']
  | .seed => ['S', 'E', 'E', 'D']
  | .next => ['N', 'E', 'X', 'T']

/-- One Word operand. -/
def operand1 (mk : Word → Instr) (cs : List Char) : Option (Instr × List Char) :=
  match wordLiteral cs with
  | none => none
  | some (a, rest) => some (mk a, rest)

/-- Two Word operands with a comma between them. -/
def operand2 (mk : Word → Word → Instr) (cs : List Char) : Option (Instr × List Char) :=
  match wordLiteral cs with
  | none => none
  | some (a, rest) =>
    match skipSpace rest with
    | ',' :: ds =>
      match wordLiteral ds with
      | none => none
      | some (b, rest') => some (mk a b, rest')
    | _ => none

/-- A byte-list operand. -/
def operandBytes (mk : List Byte → Instr) (cs : List Char) : Option (Instr × List Char) :=
  match byteList cs with
  | none => none
  | some (bs, rest) => some (mk bs, rest)

/-- The operands of a mnemonic (the table of 30_encoding.md R54). -/
def operands (o : Op) (cs : List Char) : Option (Instr × List Char) :=
  match o with
  | .rotl => operand2 .rotl cs
  | .rotr => operand2 .rotr cs
  | .scr0 => operand1 .scr0 cs
  | .scr1 => operand1 .scr1 cs
  | .scr2 => operand1 .scr2 cs
  | .scr3 => operand1 .scr3 cs
  | .noise => operand1 .noise cs
  | .hash => operandBytes .hash cs
  | .ainit => some (.ainit, cs)
  | .aadd => operandBytes .aadd cs
  | .aval => some (.aval, cs)
  | .seed => operand1 .seed cs
  | .next => some (.next, cs)

/-- Nothing is left but white space or a comment, which "runs from `;` to the end of the line" (30_encoding.md R54). -/
def atEnd (cs : List Char) : Bool :=
  match skipSpace cs with
  | [] => true
  | c :: _ => c == ';'

/-- The response after `->`: `VALUE r` or `DONE` (30_encoding.md R54). -/
def responseText (cs : List Char) : Option (Response × List Char) :=
  let ds := skipSpace cs
  let rest := ds.dropWhile isWordChar
  if ds.takeWhile isWordChar = ['D', 'O', 'N', 'E'] then some (.done, rest)
  else if ds.takeWhile isWordChar = ['V', 'A', 'L', 'U', 'E'] then
    match wordLiteral rest with
    | none => none
    | some (v, rest') => some (.value v, rest')
  else none

/-- What follows a command on its line: the end, or `->` and a response. -/
def lineEnd (i : Instr) (cs : List Char) : Line :=
  match skipSpace cs with
  | '-' :: '>' :: ds =>
    match responseText ds with
    | none => .bad
    | some (r, rest) => if atEnd rest then .command i (some r) else .bad
  | ds => if atEnd ds then .command i none else .bad

/-- Read one line: one command (30_encoding.md R54: "commands, one per line"). -/
def readLine (cs : List Char) : Line :=
  if atEnd cs then .blank
  else
    let ds := skipSpace cs
    match Op.all.find? fun o => mnemonic o == ds.takeWhile isWordChar with
    | none => .bad
    | some o =>
      match operands o (ds.dropWhile isWordChar) with
      | none => .bad
      | some (i, rest) => lineEnd i rest

/-- The frame of a line that is a command. -/
def assemble (cs : List Char) : Option Frame :=
  match readLine cs with
  | .blank => none
  | .command i _ => if i.wf then some (encode i) else none
  | .bad => none

/-- A hexadecimal digit, upper case. -/
def hexDigit (n : Nat) : Char := if n < 10 then Char.ofNat (0x30 + n) else Char.ofNat (0x41 + (n - 10))

/-- The `k` low hexadecimal digits of a number, the most significant first. -/
def hexDigits : Nat → Nat → List Char
  | 0, _ => []
  | k + 1, n => hexDigits k (n / 16) ++ [hexDigit (n % 16)]

/-- A Word as `0x` and eight hexadecimal digits. -/
def printWord (w : Word) : List Char := '0' :: 'x' :: hexDigits 8 w.toNat

/-- A byte as `0x` and two hexadecimal digits. -/
def printByte (b : Byte) : List Char := '0' :: 'x' :: hexDigits 2 b.toNat

/-- The bytes of a brace list after the first, with the closing brace. -/
def printTail : List Byte → List Char
  | [] => [rbrace]
  | b :: bs => ',' :: ' ' :: printByte b ++ printTail bs

/-- A byte list as a brace list. -/
def printBytes : List Byte → List Char
  | [] => [lbrace, rbrace]
  | b :: bs => lbrace :: printByte b ++ printTail bs

/-- A command as text (30_encoding.md R54). -/
def printInstr (i : Instr) : List Char :=
  mnemonic i.op ++
    match i with
    | .rotl w amt => ' ' :: printWord w ++ ',' :: ' ' :: printWord amt
    | .rotr w amt => ' ' :: printWord w ++ ',' :: ' ' :: printWord amt
    | .scr0 x => ' ' :: printWord x
    | .scr1 x => ' ' :: printWord x
    | .scr2 x => ' ' :: printWord x
    | .scr3 x => ' ' :: printWord x
    | .noise i => ' ' :: printWord i
    | .hash bytes => ' ' :: printBytes bytes
    | .ainit => []
    | .aadd bytes => ' ' :: printBytes bytes
    | .aval => []
    | .seed v => ' ' :: printWord v
    | .next => []

/-- A response as text, for the two that a command can get (30_encoding.md R54); an ILLEGAL frame has no command text. -/
def printResponse : Response → Option (List Char)
  | .done => some ['D', 'O', 'N', 'E']
  | .value v => some (['V', 'A', 'L', 'U', 'E', ' '] ++ printWord v)
  | .illegal _ => none

end Sys2Proof.Machine.Asm
end

