-- ==== Sys2Proof/Machine/HostWrapper.lean ====
section
/-!
DEFINITION. `nextFloat`, "host software" outside the unit (45_generator.md R104): its effect on the unit is one `NEXT`, its
value is the host's. The number type and the rescale function are arguments, since the source gives neither
(93_implementation_defined.md U6; assumption log 16).
-/

namespace Sys2Proof.Machine

/-- The Word a VALUE response carries (30_encoding.md R53). -/
def resultWord : Frame → Option Word
  | [_, v] => some v
  | _ => none

/-- `nextFloat(min, max)`: "calls `next()`", then rescales the Word it returned (45_generator.md R104). -/
def nextFloat {F : Type} (rescale : Word → F → F → F) (lo hi : F) (s : State) : Option (F × State) :=
  match step (s.deliverNext (encode .next)) with
  | .next t => (t.outbox.getLast?.bind resultWord).map fun r => (rescale r lo hi, t)
  | .fault _ => none
  | .refused _ => none

/-- `t <- r / 4294967295`, in exact arithmetic (45_generator.md R104). -/
def unitFraction (r : Word) : ℚ := r.toNat / 4294967295

/-- The linear interpolation between `lo` at `t = 0` and `hi` at `t = 1`, in exact arithmetic (45_generator.md R104). A
real host rounds; no statement about the unit rests on this function. -/
def exactRescale (r : Word) (lo hi : ℚ) : ℚ := lo + unitFraction r * (hi - lo)

end Sys2Proof.Machine
end

