-- ==== Sys2Proof/Safety.lean ====
section
/-!
DEFINITION. The terms the claims are stated in: which command reads and writes which register (10_state.md R20), runs
(70_reset_and_hazards.md R124), legal response frames (30_encoding.md R53), and interleavings of several requesters
(20_memory.md R41).
-/

namespace Sys2Proof.Machine

/-- The access table of 10_state.md R20: the commands that write `ACC`. -/
def writesAcc (i : Instr) : Bool := i.op == .ainit || i.op == .aadd

/-- The access table of 10_state.md R20: the commands that read `ACC`. -/
def readsAcc (i : Instr) : Bool := i.op == .aadd || i.op == .aval

/-- The access table of 10_state.md R20: the commands that write `GEN`. -/
def writesGen (i : Instr) : Bool := i.op == .seed || i.op == .next

/-- The access table of 10_state.md R20: the command that reads `GEN`. -/
def readsGen (i : Instr) : Bool := i.op == .next

/-- The scramble command of a network: `k` is `OP[1:0]` (30_encoding.md R50). -/
def scrCommand (k : Fin 4) (x : Word) : Instr :=
  match k with
  | 0 => .scr0 x
  | 1 => .scr1 x
  | 2 => .scr2 x
  | 3 => .scr3 x

/-- The state after one more response frame, all else as it was. -/
def State.sent (s : State) (f : Frame) : State := { s with outbox := s.outbox ++ [f] }

/-- The command a host event executes to its end, if it does: a legal frame's (30_encoding.md R51). -/
def HostEvent.command? : HostEvent → Option Instr
  | .frame ws =>
    match decode ws with
    | .command i => some i
    | .illegal _ => none
  | .reset => none
  | .resetDuring _ => none

/-- The event applies reset (70_reset_and_hazards.md R120, R123). -/
def HostEvent.resets : HostEvent → Bool
  | .frame _ => false
  | .reset => true
  | .resetDuring _ => true

/-- The event leaves `ACC` alone: no reset, and no command that writes it. -/
def HostEvent.keepsAcc (e : HostEvent) : Bool := !e.resets && !(e.command?.any writesAcc)

/-- The event leaves `GEN` alone: no reset, and no command that writes it. -/
def HostEvent.keepsGen (e : HostEvent) : Bool := !e.resets && !(e.command?.any writesGen)

/-- The bytes an event adds to the accumulator: the payload of an `AADD` (44_accumulator.md R93). -/
def HostEvent.addedBytes (e : HostEvent) : List Byte :=
  match e.command? with
  | some (.aadd bytes) => bytes
  | _ => []

/-- The event is a `NEXT` that completes (45_generator.md R101). -/
def HostEvent.isNext (e : HostEvent) : Bool := e.command? == some .next

/-- The event gets a response frame: every frame, unless reset intervenes (70_reset_and_hazards.md R124). -/
def HostEvent.answered : HostEvent → Bool
  | .frame _ => true
  | .reset => false
  | .resetDuring _ => false

/-- The state with these events as all that the host will still do. -/
def State.withEvents (s : State) (es : List HostEvent) : State := { s with inbox := es }

/-- Take every event of a list, one step each. -/
def runEvents (s : State) (es : List HostEvent) : Host.Outcome State Fault Refusal :=
  Host.Core.run core es.length (s.withEvents es)

/-- "A *run* of the unit is a reset followed by a finite list of frames" (70_reset_and_hazards.md R124). -/
def runFromReset (fs : List Frame) : Host.Outcome State Fault Refusal := runEvents State.reset (fs.map .frame)

/-- A response frame 30_encoding.md R53 allows: "No other status value is ever sent". -/
def legalResponse (r : Frame) : Bool :=
  match r with
  | [st] => st == 0x00000000 || st == 0x000001FF || st == 0x000002FF || st == 0x000003FF || st == 0x000004FF
  | [st, _] => st == 0x00000001
  | _ => false

/-- Every response the unit has sent is one of 30_encoding.md R53. -/
def State.Inv (s : State) : Prop := ∀ r ∈ s.outbox, legalResponse r = true

/-- `zs` is one order in which the whole events of two requesters reach the one port (20_memory.md R41). -/
inductive Interleaving : List HostEvent → List HostEvent → List HostEvent → Prop where
  | nil : Interleaving [] [] []
  | first {xs ys zs : List HostEvent} (e : HostEvent) : Interleaving xs ys zs → Interleaving (e :: xs) ys (e :: zs)
  | second {xs ys zs : List HostEvent} (e : HostEvent) : Interleaving xs ys zs → Interleaving xs (e :: ys) (e :: zs)

end Sys2Proof.Machine
end

