-- ==== Sys2Proof/Certificates/Slice0/Obligations.lean ====
section
/-!
DEFINITION. The statements for the provers. That the host's events and the responses sent stand in State is the model's
choice (assumption log 1, 2); what they say of `ACC`, `GEN` and of the words of a response is the spec's. `s.sent f` is `s` with the response frame `f` added and nothing else changed, so
an equation `exec i s = .next (s.sent f)` states a command's completion, its response and its frame at once.
-/

open Sys2Proof Sys2Proof.Machine

/-! ### Reset and the host's events -/

/-- 70_reset_and_hazards.md R121, 10_state.md R22: the registers after reset; `GEN` holds the OPEN parameter. -/
def Obligations.ResetLeavesCreationValues : Prop :=
  State.reset.acc = 0xAC3B843B ∧ State.reset.gen = Config.unit.genInit

/-- 70_reset_and_hazards.md R120, R123: reset, idle or in the middle of a command, sets both registers whatever they held,
sends no response, and leaves the responses already sent. That a reset is an event, and that a command in progress at reset
is the event `resetDuring`, are the model's choices (assumption log 1, 11). -/
def Obligations.ResetEventRestoresRegistersUnanswered : Prop :=
  ∀ (s : State) (ws : Frame) (rest : List HostEvent),
    step (s.withEvents (.reset :: rest)) =
        .next { acc := 0xAC3B843B, gen := Config.unit.genInit, inbox := rest, outbox := s.outbox } ∧
      step (s.withEvents (.resetDuring ws :: rest)) =
        .next { acc := 0xAC3B843B, gen := Config.unit.genInit, inbox := rest, outbox := s.outbox }

/-- 60_exceptions.md R118: "it is idle between frames and keeps `ACC` and `GEN`". That the idle unit has a step is the
model's choice (assumption log 3). -/
def Obligations.IdleUnitKeepsItsState : Prop := ∀ s : State, s.inbox = [] → step s = .next s

/-- 20_memory.md R38: the frame that arrived first is taken, and when it spells a command, that command is executed. -/
def Obligations.StepRunsTheDecodedCommand : Prop :=
  ∀ (s : State) (ws : Frame) (rest : List HostEvent) (i : Instr),
    s.inbox = .frame ws :: rest → decode ws = .command i → step s = exec i { s with inbox := rest }

/-- 60_exceptions.md R111: an ILLEGAL frame changes neither register and is answered with the one word `0x0000ccFF`; the
next step takes the next event as usual. -/
def Obligations.IllegalFrameIsAnsweredAndChangesNothing : Prop :=
  ∀ (s : State) (ws : Frame) (rest : List HostEvent) (c : IllCause), s.inbox = .frame ws :: rest →
    decode ws = .illegal c →
    ∃ r : Word, step s = .next { s with inbox := rest, outbox := s.outbox ++ [[r]] } ∧
      r = (match c with
        | .opcode => 0x000001FF
        | .reserved => 0x000002FF
        | .length => 0x000003FF
        | .pad => 0x000004FF)

/-! ### Encoding -/

/-- 30_encoding.md R49, R51: the decoder reads back every command from its frame, every operand at every value. -/
def Obligations.DecodeOfEncode : Prop := ∀ i : Instr, i.wf → decode (encode i) = .command i

/-- 30_encoding.md R49: "every command has exactly one legal frame and every legal frame spells exactly one command". -/
def Obligations.LegalFrameIsTheEncoding : Prop :=
  ∀ (ws : Frame) (i : Instr), decode ws = .command i → i.wf ∧ encode i = ws

/-- The opcodes of each format, written out from 30_encoding.md R50. -/
def Sys2Proof.codesF0 : List Nat := [0x20, 0x22, 0x31]
/-- Format F1 (30_encoding.md R50). -/
def Sys2Proof.codesF1 : List Nat := [0x04, 0x05, 0x06, 0x07, 0x08, 0x30]
/-- Format F2 (30_encoding.md R50). -/
def Sys2Proof.codesF2 : List Nat := [0x01, 0x02]
/-- Format FB (30_encoding.md R50). -/
def Sys2Proof.codesFB : List Nat := [0x10, 0x21]
/-- All 13 assigned opcodes (30_encoding.md R50). -/
def Sys2Proof.codesAll : List Nat := codesF0 ++ codesF1 ++ codesF2 ++ codesFB

/-- The word count is not the one the format of opcode `op` requires: F0: 1; F1: 2; F2: 3; FB: `2 + ceil(W[1]/4)` and at
least 2 (60_exceptions.md R112). -/
abbrev Sys2Proof.wrongCount (op : Nat) (ws : Frame) : Prop :=
  (op ∈ codesF0 ∧ ws.length ≠ 1) ∨ (op ∈ codesF1 ∧ ws.length ≠ 2) ∨ (op ∈ codesF2 ∧ ws.length ≠ 3) ∨
    (op ∈ codesFB ∧ (ws.length < 2 ∨ ws.length ≠ 2 + ((ws.getD 1 0).toNat + 3) / 4))

/-- 60_exceptions.md R112, R114: when each cause is raised, in the priority order: an empty frame, then the opcode, then the
reserved bits, then the word count, then the pad bytes. -/
def Obligations.IllegalCausesAndTheirPriority : Prop :=
  decode [] = .illegal .length ∧
  ∀ (h : Word) (t : List Word),
    (decode (h :: t) = .illegal .opcode ↔ h.toNat % 256 ∉ codesAll) ∧
    (decode (h :: t) = .illegal .reserved ↔ h.toNat % 256 ∈ codesAll ∧ h.toNat / 256 ≠ 0) ∧
    (decode (h :: t) = .illegal .length ↔
      h.toNat % 256 ∈ codesAll ∧ h.toNat / 256 = 0 ∧ wrongCount (h.toNat % 256) (h :: t)) ∧
    (decode (h :: t) = .illegal .pad ↔
      h.toNat % 256 ∈ codesFB ∧ h.toNat / 256 = 0 ∧ ¬ wrongCount (h.toNat % 256) (h :: t) ∧
        (t.getD 0 0).toNat % 4 ≠ 0 ∧ (t.getLastD 0).toNat / 2 ^ (8 * ((t.getD 0 0).toNat % 4)) ≠ 0)

/-- 30_encoding.md R48, R49: in format FB the byte count is `W[1]` and payload byte `B[i]` is bits
`8*(i mod 4)+7 : 8*(i mod 4)` of word `W[2 + (i div 4)]`. -/
def Obligations.PayloadBytesAreFrameSlices : Prop :=
  ∀ (ws : Frame) (B : List Byte), decode ws = .command (.hash B) ∨ decode ws = .command (.aadd B) →
    B.length = (ws.getD 1 0).toNat ∧ ws.length = 2 + (B.length + 3) / 4 ∧
      ∀ i, i < B.length → B.getD i 0 = (ws.getD (2 + i / 4) 0).extractLsb' (8 * (i % 4)) 8

/-- 30_encoding.md R52: 243 of the 256 values of `OP` are unassigned, `0x00` among them. -/
def Obligations.UnassignedOpcodesNumber243 : Prop :=
  ((List.range 256).countP fun n => Op.ofCode (BitVec.ofNat 8 n) == none) = 243 ∧ Op.ofCode 0x00 = none

/-- Words written out from 30_encoding.md R50 and R54 and 95_test_vectors.md: at least one of every family. -/
def Obligations.FramesOfEachFamilyDecode : Prop :=
  decode [0x00000001, 0x12345678, 0x00000004] = .command (.rotl 0x12345678 4) ∧
  decode [0x00000002, 0xDEADBEEF, 0x00000013] = .command (.rotr 0xDEADBEEF 19) ∧
  decode [0x00000004, 0x00000001] = .command (.scr0 1) ∧ decode [0x00000005, 0x00000002] = .command (.scr1 2) ∧
  decode [0x00000006, 0x00000003] = .command (.scr2 3) ∧ decode [0x00000007, 0x00000004] = .command (.scr3 4) ∧
  decode [0x00000008, 0x00000025] = .command (.noise 0x25) ∧
  decode [0x00000010, 0x00000003, 0x00636261] = .command (.hash [0x61, 0x62, 0x63]) ∧
  decode [0x00000020] = .command .ainit ∧ decode [0x00000021, 0x00000000] = .command (.aadd []) ∧
  decode [0x00000022] = .command .aval ∧ decode [0x00000030, 0xFFFFFFFF] = .command (.seed 0xFFFFFFFF) ∧
  decode [0x00000031] = .command .next

/-- 20_memory.md R33, R34: both byte orders are least significant byte first, so the four bytes of a Word are packed as the
Word itself: the frame `[0x10, 4, g]` is a `HASH` of `bytes4(g)`. -/
def Obligations.HashFrameOfOneWordCarriesItsBytes : Prop :=
  ∀ g : Word, decode [0x00000010, 0x00000004, g] =
    .command (.hash [g.extractLsb' 0 8, g.extractLsb' 8 8, g.extractLsb' 16 8, g.extractLsb' 24 8])

/-- 30_encoding.md R54: reading a printed command, alone or with its response after `->`, gives it back. The printer, and
what R54 leaves open of the notation, are the model's choice (assumption log 17). -/
def Obligations.AssemblerReadsPrintedLines : Prop :=
  ∀ i : Instr, Asm.readLine (Asm.printInstr i) = .command i none ∧
    ∀ (r : Response) (txt : List Char), Asm.printResponse r = some txt →
      Asm.readLine (Asm.printInstr i ++ [' ', '-', '>', ' '] ++ txt) = .command i (some r)

/-- 30_encoding.md R54: the four examples of text and frame. -/
def Obligations.AssemblerExamples : Prop :=
  Asm.assemble "ROTL 0x12345678, 4".toList = some [0x00000001, 0x12345678, 0x00000004] ∧
  Asm.assemble "HASH \"abc\"".toList = some [0x00000010, 0x00000003, 0x00636261] ∧
  Asm.assemble ("AADD ".toList ++ [Asm.lbrace, Asm.rbrace]) = some [0x00000021, 0x00000000] ∧
  Asm.assemble "NEXT ; draw".toList = some [0x00000031] ∧
  Asm.assemble "SEED -1".toList = some [0x00000030, 0xFFFFFFFF]

/-! ### Rotation -/

/-- 40_rotation.md R60, R62, R66: `ROTL` rotates left by the low five bits of its amount. -/
def Obligations.RotlRotatesLeft : Prop :=
  ∀ (w amt : Word) (s : State), ∃ r : Word, exec (.rotl w amt) s = .next (s.sent [0x00000001, r]) ∧
    (amt.toNat % 32 = 0 → r = w) ∧
    (amt.toNat % 32 ≠ 0 → r = (w <<< (amt.toNat % 32)) ||| (w >>> (32 - amt.toNat % 32))) ∧
    ∀ i, i < 32 → r.getLsbD ((i + amt.toNat) % 32) = w.getLsbD i

/-- 40_rotation.md R61, R63, R66: `ROTR` rotates right by the low five bits of its amount. -/
def Obligations.RotrRotatesRight : Prop :=
  ∀ (w amt : Word) (s : State), ∃ r : Word, exec (.rotr w amt) s = .next (s.sent [0x00000001, r]) ∧
    (amt.toNat % 32 = 0 → r = w) ∧
    (amt.toNat % 32 ≠ 0 → r = (w >>> (amt.toNat % 32)) ||| (w <<< (32 - amt.toNat % 32))) ∧
    ∀ i, i < 32 → r.getLsbD i = w.getLsbD ((i + amt.toNat) % 32)

/-- 40_rotation.md R64, R66: the rotation identities "for all integers `k`", read as unsigned or as two's complement. -/
def Obligations.RotationAmountIsAnyIntegerModulo32 : Prop :=
  ∀ (w : Word) (k : ℤ) (s : State),
    exec (.rotl w (BitVec.ofInt 32 k)) s = .next (s.sent [0x00000001, rotl w (k % 32).toNat]) ∧
    exec (.rotr w (BitVec.ofInt 32 k)) s = .next (s.sent [0x00000001, rotr w (k % 32).toNat]) ∧
    rotl w 0 = w ∧ rotl w 32 = w ∧ rotr w 0 = w ∧ rotr w 32 = w

/-- 40_rotation.md R65: the inverse laws, composition, and that each rotation is a bijection on Words and a permutation of
bit positions. -/
def Obligations.RotationsAreInverse : Prop :=
  ∀ (w : Word) (a b : Nat),
    rotr (rotl w a) a = w ∧ rotl (rotr w a) a = w ∧ rotr w a = rotl w (32 - a % 32) ∧
    rotl (rotl w a) b = rotl w (a + b) ∧
    Function.Bijective (fun x : Word => rotl x a) ∧ Function.Bijective (fun x : Word => rotr x a) ∧
    (∃ π : Equiv.Perm (Fin 32), ∀ (x : Word) (j : Fin 32), (rotl x a).getLsbD (π j) = x.getLsbD j) ∧
    ∃ π : Equiv.Perm (Fin 32), ∀ (x : Word) (j : Fin 32), (rotr x a).getLsbD (π j) = x.getLsbD j

/-! ### Scramble networks -/

/-- 10_state.md R15: the model's form of the parameter (assumption log 5) ranges over exactly the legal tables: 16 ordered
pairs whose 32 positions are all different. -/
def Obligations.ScramblePairsRangeOverLegalTables : Prop :=
  ∀ ps : List (Fin 32 × Fin 32),
    (∃ σ : Equiv.Perm (Fin 32), pairsOf σ = ps) ↔
      ps.length = 16 ∧ (ps.flatMap fun pq => [pq.1, pq.2]).Nodup

/-- 41_scramble.md R70, R71: the single-bit relocation in its three forms, and the swap contribution. -/
def Obligations.RelocationAndSwapBits : Prop :=
  ∀ (x : Word) (s d : Fin 32), s ≠ d →
    (∀ j : Fin 32, (rel x s d).getLsbD j = if j = d then x.getLsbD s else false) ∧
    (s < d → rel x s d = (x &&& (1#32 <<< s.val)) <<< (d.val - s.val)) ∧
    (d < s → rel x s d = (x &&& (1#32 <<< s.val)) >>> (s.val - d.val)) ∧
    (∀ j : Fin 32, (contribution .swap x (s, d)).getLsbD j =
      if j = d then x.getLsbD s else if j = s then x.getLsbD d else false) ∧
    contribution .swap x (s, d) = contribution .swap x (d, s)

/-- 41_scramble.md R72, R74 to R77: each `SCR<k>` answers the Word whose bits are those of `x` exchanged pair by pair;
the pairs name every bit, and the 16 contributions have no set bit in common. -/
def Obligations.ScrCommandsExchangeEachPair : Prop :=
  ∀ (k : Fin 4) (x : Word) (s : State), ∃ r : Word, exec (scrCommand k x) s = .next (s.sent [0x00000001, r]) ∧
    r = network .swap x (scrPairs Config.unit k) ∧
    (∀ pq ∈ scrPairs Config.unit k, r.getLsbD pq.2 = x.getLsbD pq.1 ∧ r.getLsbD pq.1 = x.getLsbD pq.2) ∧
    (∀ j : Fin 32, ∃ pq ∈ scrPairs Config.unit k, j = pq.1 ∨ j = pq.2) ∧
    (scrPairs Config.unit k).Pairwise fun a b => contribution .swap x a &&& contribution .swap x b = 0

/-- 41_scramble.md R73 items 1 to 3, for every value of the OPEN tables: each network is an involutive permutation of the
bit positions without fixed point, so it is its own inverse and keeps the number of set bits. -/
def Obligations.ScrambleIsInvolutivePermutation : Prop :=
  ∀ (c : Config) (k : Fin 4),
    (∃ π : Equiv.Perm (Fin 32), ∀ j, π j ≠ j ∧ π (π j) = j ∧
      ∀ x : Word, (scramble c k x).getLsbD (π j) = x.getLsbD j) ∧
    (∀ x : Word, scramble c k (scramble c k x) = x) ∧ Function.Bijective (scramble c k) ∧
    scramble c k 0 = 0 ∧ scramble c k 0xFFFFFFFF = 0xFFFFFFFF ∧
    ∀ x : Word, ((List.finRange 32).countP fun j => (scramble c k x).getLsbD j) =
      (List.finRange 32).countP fun j => x.getLsbD j

/-- 41_scramble.md R73 item 4, for every value of the OPEN tables. -/
def Obligations.ScrambleCommutesWithBitwise : Prop :=
  ∀ (c : Config) (k : Fin 4) (x y : Word),
    scramble c k (x ||| y) = scramble c k x ||| scramble c k y ∧
    scramble c k (x &&& y) = scramble c k x &&& scramble c k y ∧
    scramble c k (x ^^^ y) = scramble c k x ^^^ scramble c k y

/-- 41_scramble.md R73 item 5: the order of the pairs and the order within a pair do not matter. -/
def Obligations.ScrambleIgnoresPairOrder : Prop :=
  ∀ (ps qs : List (Fin 32 × Fin 32)) (flip : Fin 32 × Fin 32 → Bool) (x : Word),
    qs.Perm (ps.map fun pq => if flip pq then (pq.2, pq.1) else pq) → network .swap x qs = network .swap x ps

/-- 41_scramble.md R78: under the form not taken the positions `p_i` read zero, bits are dropped, and the function is not
injective. The unit does not use it (assumption log 7). -/
def Obligations.OneWayFormLosesBits : Prop :=
  ∀ (c : Config) (k : Fin 4),
    (∀ (x : Word), ∀ pq ∈ scrPairs c k, (network .oneWay x (scrPairs c k)).getLsbD pq.2 = x.getLsbD pq.1 ∧
      (network .oneWay x (scrPairs c k)).getLsbD pq.1 = false) ∧
    ¬ Function.Injective (fun x : Word => network .oneWay x (scrPairs c k)) ∧
    ∃ x : Word, network .oneWay x ((scrPairs c k).map Prod.swap) ≠ network .oneWay x (scrPairs c k)

/-! ### Noise -/

/-- 42_noise.md R80, R81: `NOISE i` answers what `SCR<i mod 4>` answers for `i - NOISE_TABLE[i mod 32]`. -/
def Obligations.NoiseSubtractsThenScrambles : Prop :=
  ∀ (i : Word) (s : State) (t : Fin 32) (k : Fin 4), t.val = i.toNat % 32 → k.val = i.toNat % 4 →
    k.val = t.val % 4 ∧
    exec (.noise i) s = exec (scrCommand k (i - Config.unit.noiseTable t)) s ∧
    ∃ r : Word, exec (.noise i) s = .next (s.sent [0x00000001, r])

/-- 42_noise.md R83: on the indices with one table index, noise is injective, for every value of the OPEN tables. -/
def Obligations.NoiseInjectiveOnEachTableIndex : Prop :=
  ∀ (c : Config) (i j : Word), i.toNat % 32 = j.toNat % 32 → noise c i = noise c j → i = j

/-! ### Hash -/

/-- 43_hash.md R88: `HASH` of no byte answers `0xAC3B843B`. -/
def Obligations.HashOfNoBytesIsTheInitialConstant : Prop :=
  ∀ s : State, exec (.hash []) s = .next (s.sent [0x00000001, 0xAC3B843B])

/-- 43_hash.md R85, R87: `HASH` starts from the initial constant, and one more byte takes the digest `cs` through the three
lines of the mix step, each noise word and the rotation being what `NOISE` and `ROTR` answer. This fixes every digest. -/
def Obligations.HashFoldsTheMixStep : Prop :=
  ∀ (B : List Byte) (b : Byte) (s : State),
    exec (.hash []) s = .next (s.sent [0x00000001, 0xAC3B843B]) ∧ ∃ cs n1 n2 i3 n3 : Word,
      exec (.hash B) s = .next (s.sent [0x00000001, cs]) ∧
      exec (.noise (BitVec.ofNat 32 (b.toNat / 16) + cs)) s = .next (s.sent [0x00000001, n1]) ∧
      exec (.noise ((cs + n1) + BitVec.ofNat 32 b.toNat * 238)) s = .next (s.sent [0x00000001, n2]) ∧
      exec (.rotr (1057592071 + BitVec.ofNat 32 b.toNat) 15) s = .next (s.sent [0x00000001, i3]) ∧
      exec (.noise i3) s = .next (s.sent [0x00000001, n3]) ∧
      exec (.hash (B ++ [b])) s = .next (s.sent [0x00000001, ((cs + n1) + n2) ^^^ n3])

/-- 20_memory.md R32: the operand computations of the mix step on a byte, as numbers: none wraps. -/
def Obligations.ByteOperandsDoNotWrap : Prop :=
  ∀ b : Byte, (zext32 b).toNat = b.toNat ∧ (zext32 b >>> 4).toNat = b.toNat / 16 ∧ (zext32 b * mulB).toNat = b.toNat * 238 ∧
    (addK + zext32 b).toNat = 1057592071 + b.toNat

/-- 43_hash.md R86: the fold from the left, the hash as the fold from the initial constant, and the law of a concatenation,
for every value of the OPEN tables. -/
def Obligations.FoldOfConcatenation : Prop :=
  ∀ (c : Config) (cs : Word) (b : Byte) (A B : List Byte),
    fold c cs [] = cs ∧ fold c cs ([b] ++ B) = fold c (mix c cs b) B ∧ hashOf c B = fold c 0xAC3B843B B ∧
    fold c cs (A ++ B) = fold c (fold c cs A) B

/-! ### Streaming accumulator -/

/-- 44_accumulator.md R92: `AINIT` answers DONE and leaves `ACC` so that `AVAL` then answers the initial constant. -/
def Obligations.AinitSetsTheInitialConstant : Prop :=
  ∀ s : State, ∃ t : State, exec .ainit s = .next t ∧
    t = { s with acc := 0xAC3B843B, outbox := s.outbox ++ [[0x00000000]] } ∧
    exec .aval t = .next (t.sent [0x00000001, 0xAC3B843B])

/-- 44_accumulator.md R93: `AADD` continues from the current checksum. -/
def Obligations.AaddFoldsIntoAcc : Prop :=
  ∀ (B : List Byte) (s : State),
    exec (.aadd B) s = .next { s with acc := B.foldl (mix Config.unit) s.acc, outbox := s.outbox ++ [[0x00000000]] }

/-- 44_accumulator.md R95: an empty add changes nothing and answers DONE. -/
def Obligations.EmptyAaddIsIdentity : Prop :=
  ∀ s : State, exec (.aadd []) s = .next (s.sent [0x00000000])

/-- 44_accumulator.md R94: `AVAL` answers `ACC` and changes nothing. -/
def Obligations.AvalReadsAcc : Prop :=
  ∀ s : State, exec .aval s = .next (s.sent [0x00000001, s.acc])

/-- 44_accumulator.md R96: over any run whose events are `AADD` frames and events that leave `ACC` alone, `ACC` is the fold
of all the added bytes; from the initial constant, `AVAL` then answers what one `HASH` of their concatenation answers. -/
def Obligations.StreamingEqualsOneShot : Prop :=
  ∀ (s : State) (es : List HostEvent),
    (∀ e ∈ es, e.keepsAcc = true ∨ ∃ B, e.command? = some (.aadd B)) →
    ∃ t : State, runEvents s es = .next t ∧
      t.acc = fold Config.unit s.acc (es.flatMap HostEvent.addedBytes) ∧
      (s.acc = 0xAC3B843B → exec .aval t = exec (.hash (es.flatMap HostEvent.addedBytes)) t)

/-- 20_memory.md R41, 44_accumulator.md R97: however the frames of two requesters interleave, a requester who leaves `ACC`
alone does not change what the other's frames leave in it; and the same of `GEN`. -/
def Obligations.InterleavedRequesterKeepsOthersRegister : Prop :=
  ∀ (s : State) (xs ys zs : List HostEvent), Interleaving xs ys zs →
    ∃ t u : State, runEvents s zs = .next t ∧ runEvents s xs = .next u ∧
      ((∀ e ∈ ys, e.keepsAcc = true) → t.acc = u.acc) ∧ ((∀ e ∈ ys, e.keepsGen = true) → t.gen = u.gen)

/-! ### Seeded generator -/

/-- 45_generator.md R100: `SEED v`. -/
def Obligations.SeedSetsGen : Prop :=
  ∀ (v : Word) (s : State), exec (.seed v) s = .next { s with gen := v, outbox := s.outbox ++ [[0x00000000]] }

/-- 45_generator.md R101: `NEXT` adds to `GEN` what `HASH` answers for its four bytes, least significant first, and answers
the new state. -/
def Obligations.NextAddsHashOfOwnBytes : Prop :=
  ∀ s : State, ∃ h : Word,
    exec (.hash [s.gen.extractLsb' 0 8, s.gen.extractLsb' 8 8, s.gen.extractLsb' 16 8, s.gen.extractLsb' 24 8]) s =
      .next (s.sent [0x00000001, h]) ∧
    exec .next s = .next { s with gen := s.gen + h, outbox := s.outbox ++ [[0x00000001, s.gen + h]] }

/-- 45_generator.md R102: after `SEED v`, over any run with no other `SEED` and no reset, the n-th `NEXT` answers
`step^n(v)`, whatever other commands lie between and whatever the state was before. -/
def Obligations.DrawsAfterSeedAreReproducible : Prop :=
  ∀ (s : State) (v : Word) (es : List HostEvent),
    (∀ e ∈ es, e.resets = false ∧ (e.keepsGen = true ∨ e.isNext = true)) →
    ∃ t : State, runEvents s (.frame (encode (.seed v)) :: es) = .next t ∧
      t.gen = (genStep Config.unit)^[es.countP HostEvent.isNext] v ∧
      ((es.zip (t.outbox.drop (s.outbox.length + 1))).filter fun p => p.1.isNext).map Prod.snd =
        (List.range (es.countP HostEvent.isNext)).map fun n => [0x00000001, (genStep Config.unit)^[n + 1] v]

/-! ### The whole machine -/

/-- 70_reset_and_hazards.md R122: right after reset nothing need be initialised: `AADD` works without `AINIT` and `NEXT`
without `SEED`. That the outbox holds nothing before the run's own responses is the model's choice (assumption log 2). -/
def Obligations.FirstCommandsAfterResetNeedNoSetup : Prop :=
  ∀ B : List Byte, (Instr.aadd B).wf →
    (∃ t : State, runFromReset [encode (.aadd B), encode .aval, encode (.hash B)] = .next t ∧
      ∃ h : Word, t.outbox = [[0x00000000], [0x00000001, h], [0x00000001, h]]) ∧
    ∃ t : State, runFromReset [encode .next] = .next t ∧
      t.outbox = [[0x00000001, genStep Config.unit Config.unit.genInit]] ∧ t.gen = genStep Config.unit Config.unit.genInit

/-- 60_exceptions.md R110, 70_reset_and_hazards.md R126, 30_encoding.md R53: every command, for every operand and in every
state, completes with one response, DONE or VALUE as R53 lists them, and touches nothing of the host's pending events. -/
def Obligations.EveryCommandCompletesWithItsResponse : Prop :=
  ∀ (i : Instr) (s : State), ∃ (t : State) (f : Frame), exec i s = .next t ∧ t.inbox = s.inbox ∧
    t.outbox = s.outbox ++ [f] ∧
    (i.op ∈ [Op.ainit, Op.aadd, Op.seed] → f = [0x00000000]) ∧
    (i.op ∉ [Op.ainit, Op.aadd, Op.seed] → ∃ v : Word, f = [0x00000001, v])

/-- 60_exceptions.md R110, 70_reset_and_hazards.md R126, 00_scope.md R9: no step ends in a fault or a refusal. -/
def Obligations.StepNeverStops : Prop := ∀ s : State, ∃ t : State, step s = .next t

/-- 20_memory.md R38, 70_reset_and_hazards.md R124: one total order: a run over `es ++ fs` is the run over `fs` from where
the run over `es` ends; responses are only added, one for each frame unless reset intervenes. -/
def Obligations.RunsComposeAndAnswerEachFrameInOrder : Prop :=
  ∀ (s : State) (es fs : List HostEvent), ∃ t : State, runEvents s es = .next t ∧
    runEvents s (es ++ fs) = runEvents t fs ∧ t.inbox = [] ∧
    ∃ rs : List Frame, t.outbox = s.outbox ++ rs ∧ rs.length = es.countP HostEvent.answered

/-- 30_encoding.md R53: from every state whose sent responses are all legal ones, every step leaves only legal ones. -/
def Obligations.StepKeepsResponsesLegal : Prop :=
  ∀ s t : State, s.Inv → step s = .next t → t.Inv

/-- The invariant holds at `State.reset`, because its `outbox` is empty. That it is empty is the model's choice (DESIGN
CHOICE, assumption log 2) and no rule of the spec, which says nothing of a record of responses; this is the starting point
of `StepKeepsResponsesLegal`, not a claim about the hardware. -/
def Obligations.ResetResponsesLegal : Prop := State.reset.Inv

/-- 10_state.md R12: only `AINIT`, `AADD` and reset write `ACC`. -/
def Obligations.OnlyAccumulatorCommandsAndResetWriteAcc : Prop :=
  ∀ s t : State, step s = .next t → t.acc ≠ s.acc →
    ∃ (e : HostEvent) (rest : List HostEvent), s.inbox = e :: rest ∧
      (e.resets = true ∨ e.command? = some .ainit ∨ ∃ B, e.command? = some (.aadd B))

/-- 10_state.md R13: only `SEED`, `NEXT` and reset write `GEN`. -/
def Obligations.OnlySeedNextAndResetWriteGen : Prop :=
  ∀ s t : State, step s = .next t → t.gen ≠ s.gen →
    ∃ (e : HostEvent) (rest : List HostEvent), s.inbox = e :: rest ∧
      (e.resets = true ∨ e.command? = some .next ∨ ∃ v, e.command? = some (.seed v))

/-- 10_state.md R20, R21: a command that does not read `ACC` answers the same and leaves the same `GEN` whatever `ACC`
holds; a command that does not read `GEN` answers the same and leaves the same `ACC` whatever `GEN` holds. -/
def Obligations.UnreadRegisterHasNoInfluence : Prop :=
  ∀ (i : Instr) (s : State) (v : Word), ∃ t : State, exec i s = .next t ∧
    (i.op ∉ [Op.aadd, Op.aval] → ∃ a : Word,
      exec i { s with acc := v } = .next { t with acc := a } ∧
        ((i.op = .ainit ∧ a = t.acc) ∨ (i.op ≠ .ainit ∧ a = v ∧ t.acc = s.acc))) ∧
    (i.op ≠ .next → ∃ g : Word,
      exec i { s with gen := v } = .next { t with gen := g } ∧
        ((i.op = .seed ∧ g = t.gen) ∨ (i.op ≠ .seed ∧ g = v ∧ t.gen = s.gen)))

/-! ### The host's floating-point wrapper -/

/-- 45_generator.md R104: whatever the number type, the bounds and the rescale function, `nextFloat` is one `NEXT`: it ends
in the state `NEXT` ends in, and its value is the rescale of the Word `NEXT` answered, which is the new `GEN`. -/
def Obligations.NextFloatIsOneNext : Prop :=
  ∀ (F : Type) (rescale : Word → F → F → F) (lo hi : F) (s : State), ∃ t : State,
    exec .next s = .next t ∧ nextFloat rescale lo hi s = some (rescale t.gen lo hi, t)

/-- 45_generator.md R104: in exact arithmetic the rescale is `min` at 0, `max` at `0xFFFFFFFF`, between them in between, and
both written forms of the linear interpolation agree. -/
def Obligations.ExactRescaleInterpolates : Prop :=
  ∀ lo hi : ℚ, exactRescale 0 lo hi = lo ∧ exactRescale 0xFFFFFFFF lo hi = hi ∧
    ∀ r : Word, 0 ≤ unitFraction r ∧ unitFraction r ≤ 1 ∧
      exactRescale r lo hi = lo * (1 - unitFraction r) + hi * unitFraction r ∧
      (lo ≤ hi → lo ≤ exactRescale r lo hi ∧ exactRescale r lo hi ≤ hi)
end

