-- ==== Sys2Proof/Laws/Decode.lean ====
section
/-!
SUPPORT. Small lemmas of the encoding: the opcode map, the header's fields, and how many words a payload takes.
-/

namespace Sys2Proof

/-- The map finds each assigned opcode (30_encoding.md R50). -/
theorem Op.ofCode_code (o : Op) : Op.ofCode o.code = some o := by
  cases o <;> decide

/-- The map gives an opcode for its own code only (30_encoding.md R50). -/
theorem Op.code_of_ofCode {b : Byte} {o : Op} (h : Op.ofCode b = some o) : o.code = b := by
  have := List.find?_some h
  simpa using this

/-- The header's opcode field (30_encoding.md R46). -/
theorem headerOp_header (o : Op) : headerOp (header o) = o.code := by
  cases o <;> decide

/-- The header's reserved field is zero (30_encoding.md R46). -/
theorem headerRsv_header (o : Op) : headerRsv (header o) = 0 := by
  cases o <;> decide

/-- A word with zero reserved bits is the header of its opcode field (30_encoding.md R46). -/
theorem header_of_fields {h : Word} {o : Op} (hop : headerOp h = o.code) (hrsv : headerRsv h = 0) : h = header o := by
  rw [header, ← hop]
  apply BitVec.eq_of_getLsbD_eq
  intro j hj
  have hbit : ∀ n, (headerRsv h).getLsbD n = false := by simp [hrsv]
  simp only [headerOp, BitVec.getLsbD_setWidth, BitVec.getLsbD_extractLsb']
  by_cases h8 : j < 8
  · simp [h8, hj]
  · have := hbit (j - 8)
    simp only [headerRsv, BitVec.getLsbD_extractLsb'] at this
    have hj' : 8 + (j - 8) = j := by omega
    rw [hj'] at this
    simp only [h8, decide_false, Bool.false_and, Bool.and_false]
    have : j - 8 < 24 := by omega
    simp_all

/-- Adding one full payload word (30_encoding.md R48). -/
theorem payloadWords_add_four (n : Nat) : payloadWords (n + 4) = payloadWords n + 1 := by
  simp only [payloadWords]
  have h : (n + 4) % 4 = n % 4 := by omega
  rw [h]
  omega

/-- A payload takes `ceil(L/4)` words (30_encoding.md R48). -/
theorem pack_length (bytes : List Byte) : (pack bytes).length = payloadWords bytes.length := by
  induction bytes using pack.induct with
  | case1 => rfl
  | case2 b0 => simp [pack, payloadWords]
  | case3 b0 b1 => simp [pack, payloadWords]
  | case4 b0 b1 b2 => simp [pack, payloadWords]
  | case5 b0 b1 b2 b3 rest ih =>
    simp only [pack, List.length_cons, ih]
    exact (payloadWords_add_four rest.length).symm

/-- Each byte of an assembled Word is the byte it was assembled from (20_memory.md R33). -/
theorem wordByte_wordOfBytes (b0 b1 b2 b3 : Byte) :
    wordByte (wordOfBytes b0 b1 b2 b3) 0 = b0 ∧ wordByte (wordOfBytes b0 b1 b2 b3) 1 = b1 ∧
      wordByte (wordOfBytes b0 b1 b2 b3) 2 = b2 ∧ wordByte (wordOfBytes b0 b1 b2 b3) 3 = b3 := by
  refine ⟨?_, ?_, ?_, ?_⟩ <;>
  · apply BitVec.eq_of_getLsbD_eq
    intro j hj
    simp only [wordByte, wordOfBytes, BitVec.getLsbD_extractLsb', BitVec.getLsbD_or, BitVec.getLsbD_shiftLeft,
      BitVec.getLsbD_setWidth]
    interval_cases j <;> simp

/-- A Word is assembled from its own bytes (20_memory.md R33). -/
theorem wordOfBytes_wordByte (w : Word) :
    wordOfBytes (wordByte w 0) (wordByte w 1) (wordByte w 2) (wordByte w 3) = w := by
  apply BitVec.eq_of_getLsbD_eq
  intro j hj
  simp only [wordByte, wordOfBytes, BitVec.getLsbD_extractLsb', BitVec.getLsbD_or, BitVec.getLsbD_shiftLeft,
      BitVec.getLsbD_setWidth]
  interval_cases j <;> simp

end Sys2Proof
end

