-- ==== Sys2Proof/Laws/Ops.lean ====
section
/-!
SUPPORT. One lemma per shared word function: what its bits are, or how it unfolds.
-/

namespace Sys2Proof.Machine

/-- The model's rotation is the library's, so its lemmas apply (40_rotation.md R60). -/
theorem rotl_eq_rotateLeft (w : Word) (n : Nat) : rotl w n = w.rotateLeft n := by
  unfold rotl
  simp only [BitVec.rotateLeft, BitVec.rotateLeftAux]
  split
  · rename_i h
    apply BitVec.eq_of_getLsbD_eq
    intro j hj
    simp [h, BitVec.getLsbD_of_ge]
  · rfl

/-- The model's rotation is the library's, so its lemmas apply (40_rotation.md R61). -/
theorem rotr_eq_rotateRight (w : Word) (n : Nat) : rotr w n = w.rotateRight n := by
  unfold rotr
  simp only [BitVec.rotateRight, BitVec.rotateRightAux]
  split
  · rename_i h
    rw [h]
    simp
  · rfl

/-- The effective amount is the operand modulo 32 (40_rotation.md R66). -/
theorem rotAmount_eq (amt : Word) : rotAmount amt = amt.toNat % 32 := by
  simp [rotAmount, BitVec.extractLsb'_toNat]

/-- A relocation sets bit `d` to bit `s` and nothing else (41_scramble.md R70). -/
theorem getLsbD_rel (x : Word) (s d j : Fin 32) : (rel x s d).getLsbD j = (decide (j = d) && x.getLsbD s) := by
  have hj := j.isLt
  have hs := s.isLt
  simp only [rel, bit, BitVec.getLsbD_shiftLeft, BitVec.getLsbD_and, BitVec.getLsbD_ushiftRight, BitVec.getLsbD_one]
  by_cases hjd : j = d
  · subst hjd
    simp [hj]
  · have hne : j.val ≠ d.val := fun h => hjd (Fin.ext h)
    by_cases hlt : j.val < d.val
    · simp [hjd, hlt]
    · have : j.val - d.val ≠ 0 := by omega
      simp [hjd, this]

/-- A bit of a network's result: some contribution sets it (41_scramble.md R72). -/
theorem getLsbD_network (form : ScrForm) (x : Word) (ps : List (Fin 32 × Fin 32)) (j : Fin 32) :
    (network form x ps).getLsbD j = ps.any fun pq => (contribution form x pq).getLsbD j := by
  induction ps with
  | nil => simp [network]
  | cons pq rest ih => rw [network, BitVec.getLsbD_or, ih, List.any_cons]

/-- A bit of a swap: bit `q` is bit `p` and bit `p` is bit `q` (41_scramble.md R71). -/
theorem getLsbD_swap (x : Word) (p q j : Fin 32) :
    (contribution .swap x (p, q)).getLsbD j =
      ((decide (j = q) && x.getLsbD p) || (decide (j = p) && x.getLsbD q)) := by
  simp only [contribution, BitVec.getLsbD_or, getLsbD_rel]

/-- The pairs of a network, by their number (10_state.md R15). -/
theorem mem_pairsOf (σ : Equiv.Perm (Fin 32)) (pq : Fin 32 × Fin 32) :
    pq ∈ pairsOf σ ↔ ∃ i : Fin 16, pq = (σ ⟨2 * i.val, by omega⟩, σ ⟨2 * i.val + 1, by omega⟩) := by
  simp only [pairsOf, List.mem_map, List.mem_finRange, true_and]
  exact ⟨fun ⟨i, h⟩ => ⟨i, h.symm⟩, fun ⟨i, h⟩ => ⟨i, h.symm⟩⟩

/-- The table index is the low five bits of the index (42_noise.md R80). -/
theorem tableIndex_val (i : Word) : (tableIndex i).val = i.toNat % 32 := by
  have h : (i &&& 0x1F#32).toNat = i.toNat % 32 := by
    rw [BitVec.toNat_and]
    exact Nat.and_two_pow_sub_one_eq_mod i.toNat 5
  simp [tableIndex, Fin.ofNat, h]

/-- The network index is the low two bits of the index (42_noise.md R80). -/
theorem funcIndex_val (i : Word) : (funcIndex i).val = i.toNat % 4 := by
  have h : (i &&& 0x3#32).toNat = i.toNat % 4 := by
    rw [BitVec.toNat_and]
    exact Nat.and_two_pow_sub_one_eq_mod i.toNat 2
  simp [funcIndex, Fin.ofNat, h]

end Sys2Proof.Machine
end

