-- ==== Sys2Proof/Laws/PerInstr.lean ====
section
/-!
SUPPORT. What holds of every command as syntax, one lemma per constructor.
-/

namespace Sys2Proof.Laws

namespace EncodeLength

/-- The frame of a command has the word count its format requires (30_encoding.md R47, R48). -/
def Statement (i : Instr) : Prop := (encode i).length = i.op.format.words i.payload.length

theorem rotl (w amt : Word) : Statement (.rotl w amt) := rfl
theorem rotr (w amt : Word) : Statement (.rotr w amt) := rfl
theorem scr0 (x : Word) : Statement (.scr0 x) := rfl
theorem scr1 (x : Word) : Statement (.scr1 x) := rfl
theorem scr2 (x : Word) : Statement (.scr2 x) := rfl
theorem scr3 (x : Word) : Statement (.scr3 x) := rfl
theorem noise (i : Word) : Statement (.noise i) := rfl

/-- The two header words and the payload words of a byte sequence (30_encoding.md R48). -/
theorem encodeBytes_length (bytes : List Byte) :
    (encodeBytes bytes).length + 1 = Format.fb.words bytes.length := by
  simp only [encodeBytes, List.length_cons, pack_length, Format.words]
  omega

theorem hash (bytes : List Byte) : Statement (.hash bytes) := encodeBytes_length bytes
theorem ainit : Statement .ainit := rfl
theorem aadd (bytes : List Byte) : Statement (.aadd bytes) := encodeBytes_length bytes
theorem aval : Statement .aval := rfl
theorem seed (v : Word) : Statement (.seed v) := rfl
theorem next : Statement .next := rfl

end EncodeLength

namespace EncodeHeader

/-- The frame of a command begins with the header word of its opcode (30_encoding.md R46, R50). -/
def Statement (i : Instr) : Prop := (encode i).head? = some (header i.op)

theorem rotl (w amt : Word) : Statement (.rotl w amt) := rfl
theorem rotr (w amt : Word) : Statement (.rotr w amt) := rfl
theorem scr0 (x : Word) : Statement (.scr0 x) := rfl
theorem scr1 (x : Word) : Statement (.scr1 x) := rfl
theorem scr2 (x : Word) : Statement (.scr2 x) := rfl
theorem scr3 (x : Word) : Statement (.scr3 x) := rfl
theorem noise (i : Word) : Statement (.noise i) := rfl
theorem hash (bytes : List Byte) : Statement (.hash bytes) := rfl
theorem ainit : Statement .ainit := rfl
theorem aadd (bytes : List Byte) : Statement (.aadd bytes) := rfl
theorem aval : Statement .aval := rfl
theorem seed (v : Word) : Statement (.seed v) := rfl
theorem next : Statement .next := rfl

end EncodeHeader

end Sys2Proof.Laws
end

