-- ==== Sys2Proof/Laws/State.lean ====
section
/-!
SUPPORT. What each operation on State changes and what it leaves: one lemma per field per update, true by rfl.
-/

namespace Sys2Proof.Machine

@[simp] theorem State.setAcc_acc (s : State) (v : Word) : (s.setAcc v).acc = v := rfl
@[simp] theorem State.setAcc_gen (s : State) (v : Word) : (s.setAcc v).gen = s.gen := rfl
@[simp] theorem State.setAcc_inbox (s : State) (v : Word) : (s.setAcc v).inbox = s.inbox := rfl
@[simp] theorem State.setAcc_outbox (s : State) (v : Word) : (s.setAcc v).outbox = s.outbox := rfl

@[simp] theorem State.setGen_acc (s : State) (v : Word) : (s.setGen v).acc = s.acc := rfl
@[simp] theorem State.setGen_gen (s : State) (v : Word) : (s.setGen v).gen = v := rfl
@[simp] theorem State.setGen_inbox (s : State) (v : Word) : (s.setGen v).inbox = s.inbox := rfl
@[simp] theorem State.setGen_outbox (s : State) (v : Word) : (s.setGen v).outbox = s.outbox := rfl

@[simp] theorem State.respond_acc (s : State) (r : Response) : (s.respond r).acc = s.acc := rfl
@[simp] theorem State.respond_gen (s : State) (r : Response) : (s.respond r).gen = s.gen := rfl
@[simp] theorem State.respond_inbox (s : State) (r : Response) : (s.respond r).inbox = s.inbox := rfl
@[simp] theorem State.respond_outbox (s : State) (r : Response) :
    (s.respond r).outbox = s.outbox ++ [r.frame] := rfl

@[simp] theorem answerIllegal_acc (c : IllCause) (s : State) : (answerIllegal c s).acc = s.acc := rfl
@[simp] theorem answerIllegal_gen (c : IllCause) (s : State) : (answerIllegal c s).gen = s.gen := rfl
@[simp] theorem answerIllegal_inbox (c : IllCause) (s : State) : (answerIllegal c s).inbox = s.inbox := rfl
@[simp] theorem answerIllegal_outbox (c : IllCause) (s : State) :
    (answerIllegal c s).outbox = s.outbox ++ [(Response.illegal c).frame] := rfl

@[simp] theorem applyReset_acc (s : State) : (applyReset s).acc = hashInit := rfl
@[simp] theorem applyReset_gen (s : State) : (applyReset s).gen = Config.unit.genInit := rfl
@[simp] theorem applyReset_inbox (s : State) : (applyReset s).inbox = s.inbox := rfl
@[simp] theorem applyReset_outbox (s : State) : (applyReset s).outbox = s.outbox := rfl

@[simp] theorem State.deliverNext_acc (s : State) (ws : Frame) : (s.deliverNext ws).acc = s.acc := rfl
@[simp] theorem State.deliverNext_gen (s : State) (ws : Frame) : (s.deliverNext ws).gen = s.gen := rfl
@[simp] theorem State.deliverNext_inbox (s : State) (ws : Frame) :
    (s.deliverNext ws).inbox = .frame ws :: s.inbox := rfl
@[simp] theorem State.deliverNext_outbox (s : State) (ws : Frame) : (s.deliverNext ws).outbox = s.outbox := rfl

@[simp] theorem State.withEvents_acc (s : State) (es : List HostEvent) : (s.withEvents es).acc = s.acc := rfl
@[simp] theorem State.withEvents_gen (s : State) (es : List HostEvent) : (s.withEvents es).gen = s.gen := rfl
@[simp] theorem State.withEvents_inbox (s : State) (es : List HostEvent) : (s.withEvents es).inbox = es := rfl
@[simp] theorem State.withEvents_outbox (s : State) (es : List HostEvent) :
    (s.withEvents es).outbox = s.outbox := rfl

/-- The frame of a DONE response (30_encoding.md R53). -/
theorem frame_done : Response.done.frame = [0x00000000] := by decide

/-- The frame of a VALUE response (30_encoding.md R53). -/
theorem frame_value (v : Word) : (Response.value v).frame = [0x00000001, v] := by
  have h : (Response.value v).statusWord = 0x00000001 := by
    simp [Response.statusWord, Response.cause, Response.status]
  rw [Response.frame, h]

/-- The frames of the four ILLEGAL responses: `0x0000ccFF` (60_exceptions.md R111, R112). -/
theorem frame_illegal :
    (Response.illegal .opcode).frame = [0x000001FF] ∧ (Response.illegal .reserved).frame = [0x000002FF] ∧
      (Response.illegal .length).frame = [0x000003FF] ∧ (Response.illegal .pad).frame = [0x000004FF] := by
  decide

end Sys2Proof.Machine
end

