-- ==== Sys2Proof/Laws/Step.lean ====
section
/-!
SUPPORT. Said once, what a command and a step can do: every command ends in a next state that differs from the old one in
`ACC`, `GEN` and one more response only.
-/

namespace Sys2Proof.Machine

/-- `ACC` after a command (10_state.md R12). -/
def accAfter (i : Instr) (a : Word) : Word :=
  match i with
  | .ainit => hashInit
  | .aadd bytes => fold Config.unit a bytes
  | .rotl _ _ | .rotr _ _ | .scr0 _ | .scr1 _ | .scr2 _ | .scr3 _ | .noise _ | .hash _ | .aval | .seed _ | .next => a

/-- `GEN` after a command (10_state.md R13). -/
def genAfter (i : Instr) (g : Word) : Word :=
  match i with
  | .seed v => v
  | .next => genStep Config.unit g
  | .rotl _ _ | .rotr _ _ | .scr0 _ | .scr1 _ | .scr2 _ | .scr3 _ | .noise _ | .hash _ | .ainit | .aadd _ | .aval => g

/-- The response to a command (30_encoding.md R53). -/
def answer (i : Instr) (a g : Word) : Response :=
  match i with
  | .rotl w amt => .value (rotl w (rotAmount amt))
  | .rotr w amt => .value (rotr w (rotAmount amt))
  | .scr0 x => .value (scramble Config.unit 0 x)
  | .scr1 x => .value (scramble Config.unit 1 x)
  | .scr2 x => .value (scramble Config.unit 2 x)
  | .scr3 x => .value (scramble Config.unit 3 x)
  | .noise i => .value (noise Config.unit i)
  | .hash bytes => .value (hashOf Config.unit bytes)
  | .ainit => .done
  | .aadd _ => .done
  | .aval => .value a
  | .seed _ => .done
  | .next => .value (genStep Config.unit g)

/-- Answering after a write of `GEN`, as one state. -/
theorem State.respond_setGen (s : State) (v : Word) (r : Response) :
    (s.setGen v).respond r = { acc := s.acc, gen := v, inbox := s.inbox, outbox := s.outbox ++ [r.frame] } := rfl

/-- `NEXT` in full (45_generator.md R101). -/
theorem exec_next (s : State) :
    exec .next s = .next ((s.setGen (genStep Config.unit s.gen)).respond (.value (genStep Config.unit s.gen))) := rfl

/-- Everything a command does. -/
theorem exec_eq (i : Instr) (s : State) :
    exec i s = .next
      { acc := accAfter i s.acc, gen := genAfter i s.gen, inbox := s.inbox,
        outbox := s.outbox ++ [(answer i s.acc s.gen).frame] } := by
  cases i with
  | next =>
    have ha : answer .next s.acc s.gen = .value (genStep Config.unit s.gen) := rfl
    have hg : genAfter .next s.gen = genStep Config.unit s.gen := rfl
    have hc : accAfter .next s.acc = s.acc := rfl
    rw [exec_next, ha, hg, hc, State.respond_setGen]
  | _ => rfl

/-- `SEED` in the summary (45_generator.md R100). -/
theorem genAfter_seed (v g : Word) : genAfter (.seed v) g = v := rfl

/-- `NEXT` in the summary (45_generator.md R101). Cite this rather than unfold: `genStep` of a variable does not reduce. -/
theorem genAfter_next (g : Word) : genAfter .next g = genStep Config.unit g := rfl

/-- `NEXT`'s response in the summary (45_generator.md R101). -/
theorem answer_next (a g : Word) : answer .next a g = .value (genStep Config.unit g) := rfl

/-- A command outside the access table's writers of `GEN` keeps it (10_state.md R20). -/
theorem genAfter_of_not_writes {i : Instr} (h : writesGen i = false) (g : Word) : genAfter i g = g := by
  cases i <;> first | rfl | exact absurd h (by simp [writesGen, Instr.op])

/-- A command outside the access table's writers of `ACC` keeps it (10_state.md R20). -/
theorem accAfter_of_not_writes {i : Instr} (h : writesAcc i = false) (a : Word) : accAfter i a = a := by
  cases i <;> first | rfl | exact absurd h (by simp [writesAcc, Instr.op])

/-- A command's response is no ILLEGAL one (60_exceptions.md R110). -/
theorem answer_not_illegal (i : Instr) (a g : Word) (c : IllCause) : answer i a g ≠ .illegal c := by
  cases i <;> simp [answer]

/-- What taking one event does, by the kind of event. -/
def eventOutcome (e : HostEvent) (s : State) : Host.Outcome State Fault Refusal :=
  match e with
  | .frame ws =>
    match decode ws with
    | .command i => exec i s
    | .illegal c => .next (answerIllegal c s)
  | .reset => .next (applyReset s)
  | .resetDuring _ => .next (applyReset s)

/-- Everything a step does: it idles, or it takes the oldest event (20_memory.md R38). -/
theorem step_cases (s : State) :
    (s.inbox = [] ∧ step s = .next s) ∨
      ∃ e rest, s.inbox = e :: rest ∧ step s = eventOutcome e { s with inbox := rest } := by
  cases h : s.inbox with
  | nil => exact .inl ⟨rfl, by simp [step, takeEvent, h]⟩
  | cons e rest =>
    refine .inr ⟨e, rest, rfl, ?_⟩
    simp only [step, takeEvent, h]
    cases e <;> rfl

end Sys2Proof.Machine
end

