-- ==== Sys2Proof/Laws/Run.lean ====
section
/-!
SUPPORT. Said once, what one event of the host does and how a run takes it: `ACC` after, `GEN` after, and the frames sent.
-/

namespace Sys2Proof.Machine

/-- `ACC` after an event (10_state.md R12). -/
def accAfterEvent (e : HostEvent) (a : Word) : Word :=
  if e.resets then hashInit
  else
    match e.command? with
    | some i => accAfter i a
    | none => a

/-- `GEN` after an event (10_state.md R13). -/
def genAfterEvent (e : HostEvent) (g : Word) : Word :=
  if e.resets then Config.unit.genInit
  else
    match e.command? with
    | some i => genAfter i g
    | none => g

/-- The response to a decoded frame (30_encoding.md R53). -/
def responseTo (d : Decoded) (a g : Word) : Response :=
  match d with
  | .command i => answer i a g
  | .illegal c => .illegal c

/-- The response frames an event gets: one for a frame, none for a reset (70_reset_and_hazards.md R124). -/
def sentBy (e : HostEvent) (a g : Word) : List Frame :=
  match e with
  | .frame ws => [(responseTo (decode ws) a g).frame]
  | .reset => []
  | .resetDuring _ => []

/-- The state after an event. -/
def State.afterEvent (s : State) (e : HostEvent) : State where
  acc := accAfterEvent e s.acc
  gen := genAfterEvent e s.gen
  inbox := s.inbox
  outbox := s.outbox ++ sentBy e s.acc s.gen

@[simp] theorem State.afterEvent_acc (s : State) (e : HostEvent) : (s.afterEvent e).acc = accAfterEvent e s.acc := rfl
@[simp] theorem State.afterEvent_gen (s : State) (e : HostEvent) : (s.afterEvent e).gen = genAfterEvent e s.gen := rfl
@[simp] theorem State.afterEvent_inbox (s : State) (e : HostEvent) : (s.afterEvent e).inbox = s.inbox := rfl
@[simp] theorem State.afterEvent_outbox (s : State) (e : HostEvent) :
    (s.afterEvent e).outbox = s.outbox ++ sentBy e s.acc s.gen := rfl

/-- Everything an event does. -/
theorem eventOutcome_eq (e : HostEvent) (s : State) : eventOutcome e s = .next (s.afterEvent e) := by
  cases e with
  | frame ws =>
    simp only [eventOutcome, State.afterEvent, accAfterEvent, genAfterEvent, sentBy, HostEvent.resets, HostEvent.command?]
    cases decode ws with
    | command i => exact exec_eq i s
    | illegal c => rfl
  | reset => simp [eventOutcome, State.afterEvent, accAfterEvent, genAfterEvent, sentBy, HostEvent.resets, applyReset,
      State.setAcc, State.setGen]
  | resetDuring ws => simp [eventOutcome, State.afterEvent, accAfterEvent, genAfterEvent, sentBy, HostEvent.resets,
      applyReset, State.setAcc, State.setGen]

/-- A step that takes an event. -/
theorem step_event {s : State} {e : HostEvent} {rest : List HostEvent} (h : s.inbox = e :: rest) :
    step s = .next ((s.withEvents rest).afterEvent e) := by
  rcases step_cases s with ⟨h', _⟩ | ⟨e', rest', h', hs⟩
  · simp [h] at h'
  · rw [h] at h'
    cases h'
    rw [hs, eventOutcome_eq]
    rfl

/-- A run over no event. -/
theorem runEvents_nil (s : State) : runEvents s [] = .next (s.withEvents []) := rfl

/-- A run takes its first event, then runs the rest from there. -/
theorem runEvents_cons (s : State) (e : HostEvent) (es : List HostEvent) :
    runEvents s (e :: es) = runEvents (s.afterEvent e) es := by
  have hc : core.step (s.withEvents (e :: es)) = .next (((s.withEvents (e :: es)).withEvents es).afterEvent e) :=
    step_event rfl
  simp only [runEvents, List.length_cons, Host.Core.run, hc]
  rfl

end Sys2Proof.Machine
end

