-- ==== Sys2Proof/Tests/Slice0.lean ====
section
/-!
SUPPORT. Tests on single commands, their expected values taken from 95_test_vectors.md, the smoke test of WellFormed, and
one witness for the hypotheses of each statement. The vectors marked [TC1] are computed under the spec's synthetic
configuration, on the word functions the meanings call, since the unit's own tables are opaque.
-/

namespace Sys2Proof.Tests

open Sys2Proof.Machine

/-! ### The synthetic configuration TC1 (95_test_vectors.md section 1) -/

/-- Network 0 of TC1: pairs `(i, 31 - i)`. -/
def tc1Net0 : Equiv.Perm (Fin 32) where
  toFun j := if j.val % 2 = 0 then ⟨j.val / 2, by omega⟩ else ⟨31 - j.val / 2, by omega⟩
  invFun p := if h : p.val < 16 then ⟨2 * p.val, by omega⟩ else ⟨2 * (31 - p.val) + 1, by omega⟩
  left_inv := by decide
  right_inv := by decide

/-- Network 1 of TC1: pairs `(i, i + 16)`. -/
def tc1Net1 : Equiv.Perm (Fin 32) where
  toFun j := ⟨j.val / 2 + 16 * (j.val % 2), by omega⟩
  invFun p := ⟨2 * (p.val % 16) + p.val / 16, by omega⟩
  left_inv := by decide
  right_inv := by decide

/-- Network 3 of TC1: pairs `(i, i + 8)` within each halfword. -/
def tc1Net3 : Equiv.Perm (Fin 32) where
  toFun j := ⟨j.val / 16 * 16 + j.val / 2 % 8 + 8 * (j.val % 2), by omega⟩
  invFun p := ⟨p.val / 16 * 16 + p.val % 8 * 2 + p.val / 8 % 2, by omega⟩
  left_inv := by decide
  right_inv := by decide

/-- TC1; network 2 has the pairs `(2i, 2i + 1)`. -/
def tc1 : Config where
  noiseTable j := 0x01010101 * (BitVec.ofNat 32 j.val + 1)
  scrPerm k := match k with
    | 0 => tc1Net0
    | 1 => tc1Net1
    | 2 => Equiv.refl (Fin 32)
    | 3 => tc1Net3
  genInit := 0x12345678

/-- A small state. -/
def small : State := { acc := 0x11111111, gen := 0x22222222, inbox := [], outbox := [] }

/-- The next state of an outcome. -/
def nextOf (o : Host.Outcome State Fault Refusal) : Option State :=
  match o with
  | .next t => some t
  | .fault _ => none
  | .refused _ => none

/-! ### Commands -/

/-- RT8, RT10. -/
theorem test_rotl : nextOf (exec (.rotl 0x80000001 1) small) = some (small.sent [1, 0x00000003]) ∧
    nextOf (exec (.rotl 0x12345678 0xFFFFFFFF) small) = some (small.sent [1, 0x091A2B3C]) := by decide

/-- RT9, RT15. -/
theorem test_rotr : nextOf (exec (.rotr 0x80000001 1) small) = some (small.sent [1, 0xC0000000]) ∧
    nextOf (exec (.rotr 0xDEADBEEF 31) small) = some (small.sent [1, 0xBD5B7DDF]) := by decide

/-- S0c, S0b. -/
theorem test_scr0 : scramble tc1 0 0x12345678 = 0x1E6A2C48 ∧ scramble tc1 0 0x80000000 = 0x00000001 := by decide

/-- S1c, S1d. -/
theorem test_scr1 : scramble tc1 1 0x12345678 = 0x56781234 ∧ scramble tc1 1 0xDEADBEEF = 0xBEEFDEAD := by decide

/-- S2c, S2d. -/
theorem test_scr2 : scramble tc1 2 0x12345678 = 0x2138A9B4 ∧ scramble tc1 2 0xDEADBEEF = 0xED5E7DDF := by decide

/-- S3c, S3d. -/
theorem test_scr3 : scramble tc1 3 0x12345678 = 0x34127856 ∧ scramble tc1 3 0xDEADBEEF = 0xADDEEFBE := by decide

/-- The last column of S0c and S2d: the form not taken. -/
theorem test_one_way_form : network .oneWay 0x12345678 (scrPairs tc1 0) = 0x1E6A0000 ∧
    network .oneWay 0xDEADBEEF (scrPairs tc1 2) = 0xA80A288A := by decide

/-- The four scramble commands use their own network. -/
theorem test_scr_network_numbers : exec (.scr0 5) small = .next (small.respond (.value (scramble Config.unit 0 5))) ∧
    exec (.scr3 5) small = .next (small.respond (.value (scramble Config.unit 3 5))) := ⟨rfl, rfl⟩

/-- NV7, NV8. -/
theorem test_noise : noise tc1 0x00000025 = 0xFA1FF9F9 ∧ noise tc1 0x12345678 = 0xFABCD89F := by decide

/-- M2, M4. -/
theorem test_mix : mix tc1 0xAC3B843B 0xFF = 0x04D7BE60 ∧ mix tc1 0xFFFFFFFF 0xFF = 0x08300790 := by decide

/-- H8. -/
theorem test_hash_abcde : hashOf tc1 [0x61, 0x62, 0x63, 0x64, 0x65] = 0x8D70AF57 := by decide

/-- H1, as a command. -/
theorem test_hash_empty : nextOf (exec (.hash []) small) = some (small.sent [1, 0xAC3B843B]) := by decide

/-- AV3. -/
theorem test_ainit : nextOf (exec .ainit small) = some { small with acc := 0xAC3B843B, outbox := [[0]] } := by decide

/-- AV8: from the current checksum. -/
theorem test_aadd : fold tc1 0xFA3D878A [0x62] = 0x4FD969C7 := by decide

/-- AV2: an empty add. -/
theorem test_aadd_empty : nextOf (exec (.aadd []) small) = some (small.sent [0]) := by decide

/-- 44_accumulator.md R94. -/
theorem test_aval : nextOf (exec .aval small) = some (small.sent [1, 0x11111111]) := by decide

/-- 45_generator.md R100. -/
theorem test_seed : nextOf (exec (.seed 2312) small) = some { small with gen := 0x00000908, outbox := [[0]] } := by decide

/-- GV2, GV5. -/
theorem test_next : genStep tc1 0x12345678 = 0x74A31F5A ∧ genStep tc1 0xFFFFFFFF = 0xB05C04D6 := by decide

/-! ### Frames and responses -/

/-- E1, E5, E8, E16, E20: the cause of each. -/
theorem test_illegal_frames : decode [] = .illegal .length ∧ decode [0xFFFFFFFF] = .illegal .opcode ∧
    decode [0x00000122, 0] = .illegal .reserved ∧ decode [0x00000010, 0, 0] = .illegal .length ∧
    decode [0x00000010, 5, 0x64636261, 0x00010065] = .illegal .pad := by decide

/-- E19, as a step: the response and nothing else. -/
theorem test_illegal_step :
    nextOf (step (small.deliverNext [0x00000010, 1, 0x00006100])) = some (small.sent [0x000004FF]) := by decide

/-- E23: `AVAL` right after reset answers the creation value. -/
theorem test_aval_after_reset : (nextOf (step (State.reset.withFetchWord 32 0x22))).map State.outbox =
    some [[0x00000001, 0xAC3B843B]] := by decide

/-- H10's frame: three payload words, the last with one pad byte. -/
theorem test_decode_hello_world : decode [0x10, 0x0B, 0x6C6C6568, 0x6F77206F, 0x00646C72] =
    .command (.hash [0x68, 0x65, 0x6C, 0x6C, 0x6F, 0x20, 0x77, 0x6F, 0x72, 0x6C, 0x64]) := by decide

/-- Each row of the opcode table, its operand words zero, is its command. -/
theorem test_table_rows : ([0x01, 0x02, 0x04, 0x05, 0x06, 0x07, 0x08, 0x10, 0x20, 0x21, 0x22, 0x30, 0x31].map
      (decodeTableWord 32)) =
    [some (.rotl 0 0), some (.rotr 0 0), some (.scr0 0), some (.scr1 0), some (.scr2 0), some (.scr3 0),
      some (.noise 0), some (.hash []), some .ainit, some (.aadd []), some .aval, some (.seed 0), some .next] := by
  decide

/-- A reset in the middle of a command: no response, and the reset value. -/
theorem test_reset_during : (nextOf (step (small.withEvents [.resetDuring [0x22], .frame [0x22]]))).map
    (fun t => (t.acc, t.inbox, t.outbox)) = some (0xAC3B843B, [.frame [0x22]], []) := by decide

/-- 30_encoding.md R54: a listing line with its response and a comment. -/
theorem test_read_line : Asm.readLine "ROTL 0xDEADBEEF, -19 -> VALUE 0xb7ddfbd5 ; line 4".toList =
    .command (.rotl 0xDEADBEEF 0xFFFFFFED) (some (.value 0xB7DDFBD5)) := by decide

/-- 30_encoding.md R54: a brace list. -/
theorem test_read_braces : Asm.readLine ("AADD ".toList ++ Asm.lbrace :: "0x00, 255".toList ++ [Asm.rbrace]) =
    .command (.aadd [0x00, 0xFF]) none := by decide

/-! ### WellFormed refuses an ill-formed term -/

/-- A payload of 2^32 bytes is too long for the length word, in either command that carries one. -/
theorem not_wf_of_length {bytes : List Byte} (h : bytes.length = 2 ^ 32) :
    ¬ (Instr.hash bytes).wf ∧ ¬ (Instr.aadd bytes).wf := by
  constructor <;> intro hw <;> simp only [Instr.wf, Instr.payload] at hw <;> omega

/-- The ill-formed terms themselves. -/
theorem test_wf_refuses_long_payload :
    ¬ (Instr.hash (List.replicate (2 ^ 32) 0)).wf ∧ ¬ (Instr.aadd (List.replicate (2 ^ 32) 0)).wf :=
  not_wf_of_length List.length_replicate

/-- A payload of three bytes has one. -/
theorem test_wf_accepts_short_payload : (Instr.hash [1, 2, 3]).wf := by decide

/-! ### The hypotheses of the statements can be met -/

theorem witness_idle : State.reset.inbox = [] := rfl

theorem witness_step_runs : ∃ (s : State) (ws : Frame) (rest : List HostEvent) (i : Instr),
    s.inbox = .frame ws :: rest ∧ decode ws = .command i :=
  ⟨small.deliverNext [0x30, 7], [0x30, 7], [], .seed 7, rfl, by decide⟩

theorem witness_illegal_frame (c : IllCause) : ∃ (s : State) (ws : Frame) (rest : List HostEvent),
    s.inbox = .frame ws :: rest ∧ decode ws = .illegal c := by
  cases c
  · exact ⟨small.deliverNext [0x03], _, _, rfl, by decide⟩
  · exact ⟨small.deliverNext [0x122], _, _, rfl, by decide⟩
  · exact ⟨small.deliverNext [], _, _, rfl, by decide⟩
  · exact ⟨small.deliverNext [0x10, 1, 0x100], _, _, rfl, by decide⟩

theorem witness_decode_encode : (Instr.aadd [0x61, 0x62, 0x63, 0x64, 0x65]).wf := by decide

theorem witness_legal_frame : decode [0x21, 3, 0x00636261] = .command (.aadd [0x61, 0x62, 0x63]) := by decide

theorem witness_illegal_opcode_reserved : (0x03 % 256 ∉ codesAll) ∧ 0x122 % 256 ∈ codesAll ∧ 0x122 / 256 ≠ 0 := by
  decide

theorem witness_illegal_length : wrongCount 0x22 [0x22, 0] ∧ wrongCount 0x30 [0x30] ∧ wrongCount 0x01 [0x01, 5] := by
  decide

theorem witness_illegal_length_payload : wrongCount 0x10 [0x10] ∧ wrongCount 0x10 [0x10, 0, 0] := by decide

theorem witness_illegal_pad : ¬ wrongCount 0x10 [0x10, 1, 0x100] ∧ (1#32).toNat % 4 ≠ 0 ∧
    (0x100#32).toNat / 2 ^ (8 * ((1#32).toNat % 4)) ≠ 0 := by decide

theorem witness_payload : decode [0x10, 5, 0x64636261, 0x65] = .command (.hash [0x61, 0x62, 0x63, 0x64, 0x65]) ∧
    decode [0x21, 0] = .command (.aadd []) := by decide

theorem witness_printed_response : Asm.printResponse .done = some ['D', 'O', 'N', 'E'] ∧
    (Asm.printResponse (.value 0xAB)).isSome = true := by decide

theorem witness_rotation_amounts : (32#32).toNat % 32 = 0 ∧ (33#32).toNat % 32 ≠ 0 := by decide

theorem witness_relocation : ∃ s d s' d' : Fin 32, s ≠ d ∧ s < d ∧ s' ≠ d' ∧ d' < s' := ⟨0, 31, 31, 0, by decide⟩

theorem witness_legal_pairs : (scrPairs tc1 0).length = 16 ∧
    ((scrPairs tc1 0).flatMap fun pq => [pq.1, pq.2]).Nodup := by decide

theorem witness_pair_of_network (k : Fin 4) : ∃ pq, pq ∈ scrPairs Config.unit k :=
  ⟨_, (mem_pairsOf _ _).2 ⟨0, rfl⟩⟩

theorem witness_pair_order : ∃ (ps qs : List (Fin 32 × Fin 32)) (flip : Fin 32 × Fin 32 → Bool),
    qs.Perm (ps.map fun pq => if flip pq then (pq.2, pq.1) else pq) ∧ qs ≠ ps :=
  ⟨[(0, 1), (2, 3)], [(3, 2), (0, 1)], fun pq => pq.1 == 2, by decide, by decide⟩

theorem witness_noise : ∃ (t : Fin 32) (k : Fin 4), t.val = (0xFF#32).toNat % 32 ∧ k.val = (0xFF#32).toNat % 4 :=
  ⟨31, 3, by decide⟩

theorem witness_noise_injective : ∃ (c : Config) (i j : Word), i.toNat % 32 = j.toNat % 32 ∧ noise c i = noise c j :=
  ⟨tc1, 5, 5, by decide⟩

theorem witness_streaming : ∃ (s : State) (es : List HostEvent), s.acc = 0xAC3B843B ∧
    (∀ e ∈ es, e.keepsAcc = true ∨ ∃ B, e.command? = some (.aadd B)) ∧ es.flatMap HostEvent.addedBytes = [0x61, 0x62] :=
  ⟨State.reset, [.frame [0x21, 1, 0x61], .frame [0x31], .frame [0x122], .frame [0x21, 1, 0x62]], rfl, by
    intro e he
    simp only [List.mem_cons, List.not_mem_nil, or_false] at he
    rcases he with rfl | rfl | rfl | rfl
    · exact .inr ⟨[0x61], by decide⟩
    · exact .inl (by decide)
    · exact .inl (by decide)
    · exact .inr ⟨[0x62], by decide⟩, by decide⟩

theorem witness_interleaving : ∃ xs ys zs : List HostEvent, Interleaving xs ys zs ∧ ys ≠ [] ∧ xs ≠ [] ∧
    (∀ e ∈ ys, e.keepsAcc = true) ∧ ∀ e ∈ ys, e.keepsGen = true :=
  ⟨[.frame [0x21, 1, 0x61], .reset], [.frame [0x22]], [.frame [0x21, 1, 0x61], .frame [0x22], .reset],
    .first _ (.second _ (.first _ .nil)), by decide, by decide, by decide, by decide⟩

theorem witness_draws : ∃ es : List HostEvent,
    (∀ e ∈ es, e.resets = false ∧ (e.keepsGen = true ∨ e.isNext = true)) ∧ es.countP HostEvent.isNext = 2 :=
  ⟨[.frame [0x31], .frame [0x20], .frame [0x31]], by decide, by decide⟩

theorem witness_first_commands : (Instr.aadd [0x61]).wf := by decide

theorem witness_response_kinds : (Instr.seed 0).op ∈ [Op.ainit, Op.aadd, Op.seed] ∧
    Instr.next.op ∉ [Op.ainit, Op.aadd, Op.seed] := by decide

theorem witness_invariant : ∃ s t : State, s.Inv ∧ step s = .next t ∧ t.outbox = [[0], [0x000001FF]] :=
  ⟨{ small with inbox := [.frame [0]], outbox := [[0]] }, { small with outbox := [[0], [0x000001FF]] },
    by unfold State.Inv; decide, rfl, rfl⟩

theorem witness_acc_written : ∃ s t : State, step s = .next t ∧ t.acc ≠ s.acc :=
  ⟨small.deliverNext [0x20], { small with acc := 0xAC3B843B, outbox := [[0]] }, rfl, by decide⟩

theorem witness_gen_written : ∃ s t : State, step s = .next t ∧ t.gen ≠ s.gen :=
  ⟨small.deliverNext [0x30, 5], { small with gen := 5, outbox := [[0]] }, rfl, by decide⟩

theorem witness_unread : Instr.next.op ∉ [Op.aadd, Op.aval] ∧ Instr.ainit.op ∉ [Op.aadd, Op.aval] ∧
    Instr.aval.op ≠ .next ∧ (Instr.seed 0).op ≠ .next := by decide

theorem witness_rescale : (0 : ℚ) ≤ 1 := by norm_num

end Sys2Proof.Tests
end

section
/-!
PROOFS. The family 00_scope.md: every step answers a next state.
-/

namespace Sys2Proof.Machine

/-- Settles O43: a step idles or takes the oldest event, and either way it answers a next state (60_exceptions.md R110,
R111; 70_reset_and_hazards.md R126). -/
theorem stepNeverStops : Obligations.StepNeverStops := by
  intro s
  obtain ⟨-, hidle⟩ | ⟨e, rest, -, htake⟩ := step_cases s
  · exact ⟨s, hidle⟩
  · exact ⟨_, htake.trans (eventOutcome_eq e _)⟩

end Sys2Proof.Machine
end

section
/-!
PROOFS. The family 10_state.md: the legal scramble tables, the registers after reset, which events write `ACC` and `GEN`,
and that a register a command does not read has no influence on it.
-/

namespace Sys2Proof.Machine

/-! ### The pairs of a network and their positions -/

/-- The 32 positions of a table, pair by pair (10_state.md R15). -/
def positions (ps : List (Fin 32 × Fin 32)) : List (Fin 32) := ps.flatMap fun pq => [pq.1, pq.2]

theorem positions_cons (pq : Fin 32 × Fin 32) (ps : List (Fin 32 × Fin 32)) :
    positions (pq :: ps) = pq.1 :: pq.2 :: positions ps := rfl

theorem length_positions (ps : List (Fin 32 × Fin 32)) : (positions ps).length = 2 * ps.length := by
  induction ps with
  | nil => rfl
  | cons pq ps ih => simp only [positions_cons, List.length_cons, ih]; omega

/-- A table can be read back from its positions. -/
theorem positions_injective : Function.Injective positions := by
  intro ps
  induction ps with
  | nil =>
    rintro (_ | ⟨pq, qs⟩) h
    · rfl
    · simp [positions] at h
  | cons pq ps ih =>
    rintro (_ | ⟨pq', qs⟩) h
    · simp [positions] at h
    · simp only [positions_cons, List.cons.injEq] at h
      obtain ⟨hfst, hsnd, htail⟩ := h
      rw [Prod.ext hfst hsnd, ih htail]

theorem length_pairsOf (σ : Equiv.Perm (Fin 32)) : (pairsOf σ).length = 16 := by
  simp [pairsOf]

/-- The positions of a network in their order are the permutation's values in their order. -/
theorem positions_pairsOf (σ : Equiv.Perm (Fin 32)) : positions (pairsOf σ) = List.ofFn σ := by
  refine Eq.trans ?_ (List.ofFn_mul' (m := 2) (n := 16) σ).symm
  rw [positions, pairsOf, List.flatMap_map, List.flatMap_def, ← List.ofFn_eq_map]
  rfl

/-- A list of 32 different positions is the list of values of a permutation. -/
theorem exists_perm_ofFn_eq {l : List (Fin 32)} (hlen : l.length = 32) (hnodup : l.Nodup) :
    ∃ σ : Equiv.Perm (Fin 32), List.ofFn σ = l := by
  obtain ⟨f, rfl⟩ : ∃ f : Fin 32 → Fin 32, List.ofFn f = l :=
    ⟨fun i => l.get (i.cast hlen.symm),
      List.ext_getElem (by simp only [List.length_ofFn, hlen]) fun _ _ _ => List.getElem_ofFn _⟩
  have hinj : Function.Injective f := List.nodup_ofFn.mp hnodup
  exact ⟨.ofBijective f (Finite.injective_iff_bijective.mp hinj), rfl⟩

/-- Settles O19: the positions of a network are the values of its permutation, so they are all different; a legal table's
positions are the values of a permutation, and the table can be read back from them (10_state.md R15). -/
theorem scramblePairsRangeOverLegalTables : Obligations.ScramblePairsRangeOverLegalTables := by
  intro ps
  constructor
  · rintro ⟨σ, rfl⟩
    have hnodup : (positions (pairsOf σ)).Nodup := positions_pairsOf σ ▸ List.nodup_ofFn.mpr σ.injective
    exact ⟨length_pairsOf σ, hnodup⟩
  · rintro ⟨hlen, hnodup⟩
    obtain ⟨σ, hσ⟩ := exists_perm_ofFn_eq (l := positions ps) (by rw [length_positions, hlen]) hnodup
    exact ⟨σ, positions_injective ((positions_pairsOf σ).trans hσ)⟩

/-! ### The access table -/

/-- The access table's writers of `ACC` (10_state.md R20). -/
theorem writesAcc_iff (i : Instr) : writesAcc i = true ↔ i = .ainit ∨ ∃ B, i = .aadd B := by
  cases i <;> simp [writesAcc, Instr.op]

/-- The access table's writers of `GEN` (10_state.md R20). -/
theorem writesGen_iff (i : Instr) : writesGen i = true ↔ i = .next ∨ ∃ v, i = .seed v := by
  cases i <;> simp [writesGen, Instr.op]

/-- `AINIT` leaves `HASH_INIT`, whatever `ACC` held (44_accumulator.md R92). -/
theorem accAfter_of_op_ainit {i : Instr} (h : i.op = .ainit) (a : Word) : accAfter i a = hashInit := by
  cases i with
  | ainit => rfl
  | _ => cases h

/-- `SEED` leaves its operand, whatever `GEN` held (45_generator.md R100). -/
theorem genAfter_of_op_seed {i : Instr} (h : i.op = .seed) (g g' : Word) : genAfter i g = genAfter i g' := by
  cases i with
  | seed v => rfl
  | _ => cases h

/-- A command outside the access table's readers of `ACC` answers the same whatever `ACC` holds (10_state.md R20). -/
theorem answer_of_not_readsAcc {i : Instr} (h : readsAcc i = false) (a a' g : Word) : answer i a g = answer i a' g := by
  cases i with
  | aadd bytes => cases h
  | aval => cases h
  | _ => rfl

/-- A command outside the access table's readers of `GEN` answers the same whatever `GEN` holds (10_state.md R20). -/
theorem answer_of_not_readsGen {i : Instr} (h : readsGen i = false) (a g g' : Word) : answer i a g = answer i a g' := by
  cases i with
  | next => cases h
  | _ => rfl

/-! ### What an event and a step keep -/

/-- An event that neither resets nor executes a writer of `ACC` keeps it (10_state.md R12). -/
theorem accAfterEvent_of_keepsAcc {e : HostEvent} (h : e.keepsAcc = true) (a : Word) : accAfterEvent e a = a := by
  simp only [HostEvent.keepsAcc, Bool.and_eq_true, Bool.not_eq_true'] at h
  obtain ⟨hreset, hcmd⟩ := h
  cases hc : e.command? with
  | none => simp [accAfterEvent, hreset, hc]
  | some i =>
    have hw : writesAcc i = false := by simpa [hc] using hcmd
    simp [accAfterEvent, hreset, hc, accAfter_of_not_writes hw]

/-- An event that neither resets nor executes a writer of `GEN` keeps it (10_state.md R13). -/
theorem genAfterEvent_of_keepsGen {e : HostEvent} (h : e.keepsGen = true) (g : Word) : genAfterEvent e g = g := by
  simp only [HostEvent.keepsGen, Bool.and_eq_true, Bool.not_eq_true'] at h
  obtain ⟨hreset, hcmd⟩ := h
  cases hc : e.command? with
  | none => simp [genAfterEvent, hreset, hc]
  | some i =>
    have hw : writesGen i = false := by simpa [hc] using hcmd
    simp [genAfterEvent, hreset, hc, genAfter_of_not_writes hw]

/-- An event that is not free of resets and of the commands in `writes` is a reset or executes one of them. -/
theorem resets_or_executes {e : HostEvent} {writes : Instr → Bool}
    (h : (!e.resets && !(e.command?.any writes)) = false) :
    e.resets = true ∨ ∃ i, e.command? = some i ∧ writes i = true := by
  cases hr : e.resets with
  | true => exact .inl rfl
  | false => exact .inr (by simpa [hr, Option.any_eq_true] using h)

/-- The events that may change `ACC`. -/
theorem keepsAcc_eq_false {e : HostEvent} (h : e.keepsAcc = false) :
    e.resets = true ∨ e.command? = some .ainit ∨ ∃ B, e.command? = some (.aadd B) := by
  obtain hr | ⟨i, hi, hw⟩ := resets_or_executes (writes := writesAcc) h
  · exact .inl hr
  · obtain rfl | ⟨B, rfl⟩ := (writesAcc_iff i).mp hw
    · exact .inr (.inl hi)
    · exact .inr (.inr ⟨B, hi⟩)

/-- The events that may change `GEN`. -/
theorem keepsGen_eq_false {e : HostEvent} (h : e.keepsGen = false) :
    e.resets = true ∨ e.command? = some .next ∨ ∃ v, e.command? = some (.seed v) := by
  obtain hr | ⟨i, hi, hw⟩ := resets_or_executes (writes := writesGen) h
  · exact .inl hr
  · obtain rfl | ⟨v, rfl⟩ := (writesGen_iff i).mp hw
    · exact .inr (.inl hi)
    · exact .inr (.inr ⟨v, hi⟩)

/-- Where a step leads: an idle one nowhere, any other to the state after the oldest event (20_memory.md R38). -/
theorem next_state_cases {s t : State} (h : step s = .next t) :
    t = s ∨ ∃ e rest, s.inbox = e :: rest ∧ t = (s.withEvents rest).afterEvent e := by
  obtain ⟨-, hidle⟩ | ⟨e, rest, hin, -⟩ := step_cases s
  · exact .inl (Host.Outcome.next.inj (h.symm.trans hidle))
  · exact .inr ⟨e, rest, hin, Host.Outcome.next.inj (h.symm.trans (step_event hin))⟩

/-- Settles O47: an idle step changes nothing, and an event that changes `ACC` is none of those that keep it (10_state.md
R12, R20). -/
theorem onlyAccumulatorCommandsAndResetWriteAcc : Obligations.OnlyAccumulatorCommandsAndResetWriteAcc := by
  intro s t hstep hchanged
  obtain rfl | ⟨e, rest, hin, rfl⟩ := next_state_cases hstep
  · exact absurd rfl hchanged
  · refine ⟨e, rest, hin, keepsAcc_eq_false (Bool.eq_false_iff.mpr fun hkeeps => hchanged ?_)⟩
    exact accAfterEvent_of_keepsAcc hkeeps s.acc

/-- Settles O48: an idle step changes nothing, and an event that changes `GEN` is none of those that keep it (10_state.md
R13, R20). -/
theorem onlySeedNextAndResetWriteGen : Obligations.OnlySeedNextAndResetWriteGen := by
  intro s t hstep hchanged
  obtain rfl | ⟨e, rest, hin, rfl⟩ := next_state_cases hstep
  · exact absurd rfl hchanged
  · refine ⟨e, rest, hin, keepsGen_eq_false (Bool.eq_false_iff.mpr fun hkeeps => hchanged ?_)⟩
    exact genAfterEvent_of_keepsGen hkeeps s.gen

/-! ### Two runs of one command from states that differ in one register -/

/-- Where a command that does not read `ACC` leads from a state that differs in `ACC` only. -/
theorem exec_acc_of_not_readsAcc {i : Instr} (h : readsAcc i = false) (s : State) (v : Word) :
    exec i { s with acc := v } = .next
      { acc := accAfter i v, gen := genAfter i s.gen, inbox := s.inbox,
        outbox := s.outbox ++ [(answer i s.acc s.gen).frame] } := by
  rw [exec_eq, answer_of_not_readsAcc h v s.acc]

/-- Where a command that does not read `GEN` leads from a state that differs in `GEN` only. -/
theorem exec_gen_of_not_readsGen {i : Instr} (h : readsGen i = false) (s : State) (v : Word) :
    exec i { s with gen := v } = .next
      { acc := accAfter i s.acc, gen := genAfter i v, inbox := s.inbox,
        outbox := s.outbox ++ [(answer i s.acc s.gen).frame] } := by
  rw [exec_eq, answer_of_not_readsGen h s.acc v s.gen]

/-- `ACC` after a command that does not read it: the same from any two values if it is `AINIT`, else as it was. -/
theorem accAfter_of_not_readsAcc {i : Instr} (h : readsAcc i = false) (a v : Word) :
    (i.op = .ainit ∧ accAfter i v = accAfter i a) ∨ (i.op ≠ .ainit ∧ accAfter i v = v ∧ accAfter i a = a) := by
  by_cases hop : i.op = .ainit
  · exact .inl ⟨hop, (accAfter_of_op_ainit hop v).trans (accAfter_of_op_ainit hop a).symm⟩
  · have hw : writesAcc i = false := by
      simp only [readsAcc, Bool.or_eq_false_iff] at h
      simp [writesAcc, hop, h.1]
    exact .inr ⟨hop, accAfter_of_not_writes hw v, accAfter_of_not_writes hw a⟩

/-- `GEN` after a command that does not read it: the same from any two values if it is `SEED`, else as it was. -/
theorem genAfter_of_not_readsGen {i : Instr} (h : readsGen i = false) (g v : Word) :
    (i.op = .seed ∧ genAfter i v = genAfter i g) ∨ (i.op ≠ .seed ∧ genAfter i v = v ∧ genAfter i g = g) := by
  by_cases hop : i.op = .seed
  · exact .inl ⟨hop, genAfter_of_op_seed hop v g⟩
  · have hw : writesGen i = false := by
      rw [readsGen] at h
      simp [writesGen, hop, h]
    exact .inr ⟨hop, genAfter_of_not_writes hw v, genAfter_of_not_writes hw g⟩

/-- Settles O49: the command's answer and the other register come from the summary `exec_eq`, which uses a register only
for the commands that read it (10_state.md R20, R21; 44_accumulator.md R97). -/
theorem unreadRegisterHasNoInfluence : Obligations.UnreadRegisterHasNoInfluence := by
  intro i s v
  refine ⟨_, exec_eq i s, fun hop => ?_, fun hop => ?_⟩
  · have hr : readsAcc i = false := by simpa [readsAcc] using hop
    exact ⟨accAfter i v, exec_acc_of_not_readsAcc hr s v, accAfter_of_not_readsAcc hr s.acc v⟩
  · have hr : readsGen i = false := by simpa [readsGen] using hop
    exact ⟨genAfter i v, exec_gen_of_not_readsGen hr s v, genAfter_of_not_readsGen hr s.gen v⟩

/-- Settles O1: `State.reset` holds `HASH_INIT` and the OPEN parameter `GEN_INIT` (10_state.md R22,
70_reset_and_hazards.md R121). -/
theorem resetLeavesCreationValues : Obligations.ResetLeavesCreationValues := ⟨rfl, rfl⟩

end Sys2Proof.Machine
end

section
/-!
PROOFS. The family 20_memory.md: the operands and bytes of a command, the one total order of the host's events, and
requesters that share the one port.
-/

namespace Sys2Proof

/-! ### Bytes of a Word in a frame -/

/-- After the header of an assigned opcode the decoder reads its operands (30_encoding.md R51, steps 2 to 5). -/
theorem decode_header_cons (o : Op) (ws : List Word) : decode (header o :: ws) = decodeOperands o ws := by
  simp only [decode, headerOp_header, Op.ofCode_code, headerRsv_header, ne_eq, not_true_eq_false, if_false]

/-- A one-word payload of length 4 has no pad byte: it carries the four bytes of its word (30_encoding.md R48, R49). -/
theorem decodeFB_four (mk : List Byte → Instr) (g : Word) : decodeFB mk [4, g] = .command (mk (wordBytes g)) := by
  have hcount : [g].length = payloadWords (4 : Word).toNat := rfl
  have hpad : padBad (4 : Word).toNat ([g].getLastD 0) = false := rfl
  have hbytes : unpack (4 : Word).toNat [g] = wordBytes g := rfl
  simp only [decodeFB, ← hcount, hpad, hbytes, ne_eq, not_true_eq_false, if_false, Bool.false_eq_true]

/-- Settles O12: `0x10` is the header of `HASH`, whose payload here is the one full word `g` (20_memory.md R33, R34). -/
theorem hashFrameOfOneWordCarriesItsBytes : Obligations.HashFrameOfOneWordCarriesItsBytes := by
  intro g
  have hheader : (0x00000010 : Word) = header .hash := rfl
  rw [hheader, decode_header_cons]
  exact decodeFB_four .hash g

end Sys2Proof

namespace Sys2Proof.Machine

/-! ### Bytes as Words -/

/-- A byte enters arithmetic with its own value (20_memory.md R32). -/
@[simp] theorem zext32_toNat (b : Byte) : (zext32 b).toNat = b.toNat := by
  have hb := b.isLt
  simp only [zext32, BitVec.toNat_setWidth]
  omega

/-- Settles O30: with `b` at most 255 each result is below 2^32, so the Word operation is the operation on numbers
(20_memory.md R32). -/
theorem byteOperandsDoNotWrap : Obligations.ByteOperandsDoNotWrap := by
  intro b
  have hb := b.isLt
  have hmulB : mulB.toNat = 238 := rfl
  have haddK : addK.toNat = 1057592071 := rfl
  refine ⟨zext32_toNat b, ?_, ?_, ?_⟩
  · rw [BitVec.toNat_ushiftRight, zext32_toNat, Nat.shiftRight_eq_div_pow]
  · rw [BitVec.toNat_mul, zext32_toNat, hmulB]
    omega
  · rw [BitVec.toNat_add, zext32_toNat, haddK]
    omega

/-! ### The oldest event -/

/-- A frame that spells a command has that command executed (30_encoding.md R51). -/
theorem eventOutcome_frame_of_command {ws : Frame} {i : Instr} (h : decode ws = .command i) (s : State) :
    eventOutcome (.frame ws) s = exec i s := by
  simp only [eventOutcome, h]

/-- Settles O4: the step takes the oldest event (20_memory.md R38), a frame that spells `i`. -/
theorem stepRunsTheDecodedCommand : Obligations.StepRunsTheDecodedCommand := by
  intro s ws rest i hin hdec
  calc step s = .next ((s.withEvents rest).afterEvent (.frame ws)) := step_event hin
    _ = eventOutcome (.frame ws) (s.withEvents rest) := (eventOutcome_eq _ _).symm
    _ = exec i (s.withEvents rest) := eventOutcome_frame_of_command hdec _

/-! ### Where a run ends -/

/-- The state after a list of events, taken in their order (20_memory.md R38). -/
def State.afterEvents (s : State) (es : List HostEvent) : State := es.foldl State.afterEvent s

@[simp] theorem State.afterEvents_nil (s : State) : s.afterEvents [] = s := rfl

@[simp] theorem State.afterEvents_cons (s : State) (e : HostEvent) (es : List HostEvent) :
    s.afterEvents (e :: es) = (s.afterEvent e).afterEvents es := rfl

theorem State.afterEvents_append (s : State) (es fs : List HostEvent) :
    s.afterEvents (es ++ fs) = (s.afterEvents es).afterEvents fs := List.foldl_append

/-- Everything a run does: it takes all its events and leaves none pending. -/
theorem runEvents_eq (s : State) (es : List HostEvent) : runEvents s es = .next ((s.afterEvents es).withEvents []) := by
  induction es generalizing s with
  | nil => exact runEvents_nil s
  | cons e es ih => rw [runEvents_cons, ih, State.afterEvents_cons]

/-- What was pending before a run has no part in it: its events are all that the host will do. -/
@[simp] theorem runEvents_withEvents (s : State) (pending es : List HostEvent) :
    runEvents (s.withEvents pending) es = runEvents s es := rfl

/-- A run over `es ++ fs` goes on with `fs` from where `es` leads (70_reset_and_hazards.md R124). -/
theorem runEvents_append (s : State) (es fs : List HostEvent) :
    runEvents s (es ++ fs) = runEvents (s.afterEvents es) fs := by
  rw [runEvents_eq, State.afterEvents_append, ← runEvents_eq]

/-- An event adds one response if it is a frame that no reset cuts, else none (70_reset_and_hazards.md R124). -/
theorem length_sentBy (e : HostEvent) (a g : Word) : (sentBy e a g).length = [e].countP HostEvent.answered := by
  cases e <;> rfl

/-- Events only add responses, one for each frame that no reset cuts (70_reset_and_hazards.md R124). -/
theorem outbox_afterEvents (s : State) (es : List HostEvent) :
    ∃ rs : List Frame, (s.afterEvents es).outbox = s.outbox ++ rs ∧ rs.length = es.countP HostEvent.answered := by
  induction es generalizing s with
  | nil => exact ⟨[], (List.append_nil _).symm, rfl⟩
  | cons e es ih =>
    obtain ⟨rs, hout, hlen⟩ := ih (s.afterEvent e)
    refine ⟨sentBy e s.acc s.gen ++ rs, ?_, ?_⟩
    · rw [State.afterEvents_cons, hout, State.afterEvent_outbox, List.append_assoc]
    · rw [List.length_append, length_sentBy, hlen, ← List.countP_append, List.singleton_append]

/-- Settles O44: the run over `es` ends in `s.afterEvents es`, from where the run over `fs` goes on, and each frame that no
reset cuts adds one response (20_memory.md R36, R38; 70_reset_and_hazards.md R124). -/
theorem runsComposeAndAnswerEachFrameInOrder : Obligations.RunsComposeAndAnswerEachFrameInOrder := by
  intro s es fs
  exact ⟨_, runEvents_eq s es, runEvents_append s es fs, rfl, outbox_afterEvents s es⟩

/-! ### Interleaved requesters -/

/-- `ACC` after a list of events depends on the events and the old `ACC` only (10_state.md R12). -/
theorem State.afterEvents_acc (s : State) (es : List HostEvent) :
    (s.afterEvents es).acc = es.foldl (fun a e => accAfterEvent e a) s.acc := by
  induction es generalizing s with
  | nil => rfl
  | cons e es ih => rw [State.afterEvents_cons, ih, State.afterEvent_acc, List.foldl_cons]

/-- `GEN` after a list of events depends on the events and the old `GEN` only (10_state.md R13). -/
theorem State.afterEvents_gen (s : State) (es : List HostEvent) :
    (s.afterEvents es).gen = es.foldl (fun g e => genAfterEvent e g) s.gen := by
  induction es generalizing s with
  | nil => rfl
  | cons e es ih => rw [State.afterEvents_cons, ih, State.afterEvent_gen, List.foldl_cons]

/-- A value that events update one after another ends the same over an interleaving as over the first requester's
events, if no event of the second changes it (20_memory.md R41). -/
theorem Interleaving.foldl_eq {xs ys zs : List HostEvent} (h : Interleaving xs ys zs) {α : Type}
    (f : α → HostEvent → α) (hkeeps : ∀ e ∈ ys, ∀ a, f a e = a) (a : α) : zs.foldl f a = xs.foldl f a := by
  induction h generalizing a with
  | nil => rfl
  | first e _ ih => exact ih hkeeps (f a e)
  | second e _ ih =>
    obtain ⟨hhead, htail⟩ := List.forall_mem_cons.mp hkeeps
    rw [List.foldl_cons, hhead a, ih htail a]

/-- Settles O37: each register follows its own fold over the events, in which the second requester's events change
nothing (20_memory.md R41, 44_accumulator.md R97). -/
theorem interleavedRequesterKeepsOthersRegister : Obligations.InterleavedRequesterKeepsOthersRegister := by
  intro s xs ys zs hzs
  refine ⟨_, _, runEvents_eq s zs, runEvents_eq s xs, fun hacc => ?_, fun hgen => ?_⟩
  · rw [State.withEvents_acc, State.withEvents_acc, State.afterEvents_acc, State.afterEvents_acc]
    exact hzs.foldl_eq _ (fun e he => accAfterEvent_of_keepsAcc (hacc e he)) s.acc
  · rw [State.withEvents_gen, State.withEvents_gen, State.afterEvents_gen, State.afterEvents_gen]
    exact hzs.foldl_eq _ (fun e he => genAfterEvent_of_keepsGen (hgen e he)) s.gen

end Sys2Proof.Machine
end

section
/-!
PROOFS. The family 30_encoding.md, the command frames: a frame spells a command exactly when it is the encoding of that
command and the command is well-formed, so decoding and encoding are inverse; the bytes of a payload are slices of its
words; the opcode map leaves 243 values unassigned.
-/

namespace Sys2Proof

/-! ### Payload bytes and payload words -/

/-- A payload takes `ceil(L/4)` words, in one division (30_encoding.md R48). -/
theorem payloadWords_eq (L : Nat) : payloadWords L = (L + 3) / 4 := by
  simp only [payloadWords]
  split <;> omega

theorem length_wordBytes (w : Word) : (wordBytes w).length = 4 := rfl

/-- The four bytes of an assembled Word (20_memory.md R33). -/
@[simp] theorem wordBytes_wordOfBytes (b0 b1 b2 b3 : Byte) : wordBytes (wordOfBytes b0 b1 b2 b3) = [b0, b1, b2, b3] := by
  obtain ⟨h0, h1, h2, h3⟩ := wordByte_wordOfBytes b0 b1 b2 b3
  rw [wordBytes, h0, h1, h2, h3]

/-- The number a byte of a Word stands for (30_encoding.md R49). -/
theorem wordByte_toNat (w : Word) (j : Nat) : (wordByte w j).toNat = w.toNat / 2 ^ (8 * j) % 256 := by
  rw [wordByte, BitVec.extractLsb'_toNat, Nat.shiftRight_eq_div_pow]

/-- The bits of a Word from byte `k` up are zero exactly when its bytes from byte `k` up are. -/
theorem ushiftRight_eq_zero_iff (w : Word) {k : Nat} (hk : k < 4) :
    w >>> (8 * k) = 0 ↔ ∀ b ∈ (wordBytes w).drop k, b = 0 := by
  have hw := w.isLt
  simp only [← BitVec.toNat_inj, BitVec.toNat_ushiftRight, Nat.shiftRight_eq_div_pow, wordBytes]
  interval_cases k <;>
    simp only [BitVec.ofNat_eq_ofNat, BitVec.toNat_ofNat, List.drop_succ_cons, List.drop_zero, List.forall_mem_cons,
      List.not_mem_nil, false_implies, implies_true, and_true, wordByte_toNat, Nat.reduceMul, Nat.reducePow] <;>
    omega

/-- The pad check passes exactly when the bytes of the last word beyond the payload are zero (30_encoding.md R51,
step 5). -/
theorem padBad_eq_false_iff (L : Nat) (last : Word) :
    padBad L last = false ↔ (L % 4 ≠ 0 → ∀ b ∈ (wordBytes last).drop (L % 4), b = 0) := by
  rw [← ushiftRight_eq_zero_iff last (Nat.mod_lt L (by decide))]
  simp [padBad]

/-- The pad check looks at the length modulo 4 only. -/
theorem padBad_add_four (L : Nat) (last : Word) : padBad (L + 4) last = padBad L last := by
  simp only [padBad, Nat.add_mod_right]

/-- The payload words of a byte sequence carry that sequence (30_encoding.md R49). -/
theorem unpack_pack (B : List Byte) : unpack B.length (pack B) = B := by
  induction B using pack.induct with
  | case1 => rfl
  | case2 b0 => simp [pack, unpack]
  | case3 b0 b1 => simp [pack, unpack]
  | case4 b0 b1 b2 => simp [pack, unpack]
  | case5 b0 b1 b2 b3 rest ih => simpa [pack, unpack] using ih

/-- The pad bytes of packed words are zero (30_encoding.md R49). The word `d` stands for the one before them: it is looked
at only where there is no payload word, and then there is no pad byte. -/
theorem padBad_pack (B : List Byte) (d : Word) : padBad B.length ((pack B).getLastD d) = false := by
  induction B using pack.induct generalizing d with
  | case1 => rfl
  | case2 b0 => simp [padBad_eq_false_iff, pack]
  | case3 b0 b1 => simp [padBad_eq_false_iff, pack]
  | case4 b0 b1 b2 => simp [padBad_eq_false_iff, pack]
  | case5 b0 b1 b2 b3 rest ih =>
    rw [pack, List.getLastD_cons]
    exact (padBad_add_four rest.length _).trans (ih _)

/-- As many words as `L` bytes take carry `L` bytes (30_encoding.md R48, R49). -/
theorem length_unpack {L : Nat} {ws : List Word} (h : ws.length = payloadWords L) : (unpack L ws).length = L := by
  rw [payloadWords_eq] at h
  induction ws generalizing L with
  | nil => simp only [List.length_nil] at h; simp only [unpack, List.length_nil]; omega
  | cons w ws ih =>
    rw [List.length_cons] at h
    rw [unpack, List.length_append, List.length_take, length_wordBytes, ih (by omega)]
    omega

/-- A Word whose bytes from byte `L` up are zero is the one payload word of its first `L` bytes (30_encoding.md R49). -/
theorem pack_take_wordBytes {L : Nat} (w : Word) (hpos : 0 < L) (hlt : L < 4)
    (hpad : ∀ b ∈ (wordBytes w).drop L, b = 0) : pack ((wordBytes w).take L) = [w] := by
  refine Eq.trans ?_ (congrArg (fun v => [v]) (wordOfBytes_wordByte w))
  interval_cases L <;>
  · simp only [wordBytes, List.drop_succ_cons, List.drop_zero, List.forall_mem_cons] at hpad
    simp [wordBytes, pack, hpad]

/-- Payload words whose count and pad bytes are right are the packing of the bytes they carry (30_encoding.md R49). -/
theorem pack_unpack {L : Nat} {ws : List Word} {d : Word} (hlen : ws.length = payloadWords L)
    (hpad : padBad L (ws.getLastD d) = false) : pack (unpack L ws) = ws := by
  induction ws generalizing L d with
  | nil => rfl
  | cons w ws ih =>
    rw [List.getLastD_cons] at hpad
    by_cases hL : 4 ≤ L
    · obtain ⟨L, rfl⟩ := Nat.exists_eq_add_of_le' hL
      rw [payloadWords_add_four, List.length_cons, Nat.add_right_cancel_iff] at hlen
      rw [padBad_add_four] at hpad
      have hbytes : unpack (L + 4) (w :: ws) =
        wordByte w 0 :: wordByte w 1 :: wordByte w 2 :: wordByte w 3 :: unpack L ws := by simp [unpack, wordBytes]
      rw [hbytes, pack, wordOfBytes_wordByte, ih hlen hpad]
    · rw [payloadWords_eq, List.length_cons] at hlen
      obtain rfl : ws = [] := List.length_eq_zero_iff.mp (by omega)
      have hmod : L % 4 = L := Nat.mod_eq_of_lt (by omega)
      rw [padBad_eq_false_iff, hmod] at hpad
      rw [unpack, unpack, List.append_nil]
      exact pack_take_wordBytes w (by omega) (by omega) (hpad (by omega))

/-- Byte `i` of a sequence is byte `i mod 4` of its payload word `i div 4` (30_encoding.md R49). -/
theorem wordByte_pack (B : List Byte) {i : Nat} (hi : i < B.length) :
    wordByte ((pack B).getD (i / 4) 0) (i % 4) = B.getD i 0 := by
  induction B using pack.induct generalizing i with
  | case1 => simp at hi
  | case2 b0 =>
    have hi : i < 1 := hi
    interval_cases i
    simp [pack, wordByte_wordOfBytes]
  | case3 b0 b1 =>
    have hi : i < 2 := hi
    interval_cases i <;> simp [pack, wordByte_wordOfBytes]
  | case4 b0 b1 b2 =>
    have hi : i < 3 := hi
    interval_cases i <;> simp [pack, wordByte_wordOfBytes]
  | case5 b0 b1 b2 b3 rest ih =>
    by_cases h4 : i < 4
    · interval_cases i <;> simp [pack, wordByte_wordOfBytes]
    · obtain ⟨i, rfl⟩ := Nat.exists_eq_add_of_le' (Nat.le_of_not_lt h4)
      have hdiv : (i + 4) / 4 = i / 4 + 1 := Nat.add_div_right i (by decide)
      rw [hdiv, Nat.add_mod_right, pack, List.getD_cons_succ]
      exact ih (by simpa using hi)

/-! ### Decoding is the inverse of encoding -/

/-- Format F0 spells its command with no operand word only (30_encoding.md R51, step 5). -/
theorem decodeF0_eq_command {i j : Instr} : ∀ {ws : List Word}, decodeF0 i ws = .command j → ws = [] ∧ j = i
  | [], h => ⟨rfl, (Decoded.command.inj h).symm⟩
  | _ :: _, h => nomatch h

/-- Format F1 spells a command with one operand word only (30_encoding.md R51, step 5). -/
theorem decodeF1_eq_command {mk : Word → Instr} {j : Instr} :
    ∀ {ws : List Word}, decodeF1 mk ws = .command j → ∃ a, ws = [a] ∧ j = mk a
  | [a], h => ⟨a, rfl, (Decoded.command.inj h).symm⟩
  | [], h => nomatch h
  | _ :: _ :: _, h => nomatch h

/-- Format F2 spells a command with two operand words only (30_encoding.md R51, step 5). -/
theorem decodeF2_eq_command {mk : Word → Word → Instr} {j : Instr} :
    ∀ {ws : List Word}, decodeF2 mk ws = .command j → ∃ a b, ws = [a, b] ∧ j = mk a b
  | [a, b], h => ⟨a, b, rfl, (Decoded.command.inj h).symm⟩
  | [], h => nomatch h
  | [_], h => nomatch h
  | _ :: _ :: _ :: _, h => nomatch h

/-- A legal operand of format FB is the encoding of a byte sequence that fits the length word (30_encoding.md R48, R49). -/
theorem decodeFB_eq_command {mk : List Byte → Instr} {j : Instr} {ws : List Word} (h : decodeFB mk ws = .command j) :
    ∃ B, B.length < 2 ^ 32 ∧ ws = encodeBytes B ∧ j = mk B := by
  cases ws with
  | nil => simp [decodeFB] at h
  | cons l payload =>
    rw [decodeFB] at h
    split_ifs at h with hlen hpad
    rw [ne_eq, not_not] at hlen
    have hbytes := length_unpack hlen
    refine ⟨unpack l.toNat payload, ?_, ?_, (Decoded.command.inj h).symm⟩
    · rw [hbytes]; exact l.isLt
    · rw [encodeBytes, hbytes, BitVec.ofNat_toNat, BitVec.setWidth_eq, pack_unpack hlen (Bool.eq_false_iff.mpr hpad)]

/-- Format FB reads back every byte sequence that fits the length word (30_encoding.md R48, R49). -/
theorem decodeFB_encodeBytes (mk : List Byte → Instr) {B : List Byte} (hB : B.length < 2 ^ 32) :
    decodeFB mk (encodeBytes B) = .command (mk B) := by
  have hL : (BitVec.ofNat 32 B.length).toNat = B.length := Nat.mod_eq_of_lt hB
  simp only [encodeBytes, decodeFB, hL, pack_length, padBad_pack, unpack_pack, ne_eq, not_true_eq_false, if_false,
    Bool.false_eq_true]

theorem decodeOperands_encodeOperands {i : Instr} (hwf : i.wf) :
    decodeOperands i.op (encodeOperands i) = .command i := by
  cases i with
  | hash bytes => exact decodeFB_encodeBytes .hash hwf
  | aadd bytes => exact decodeFB_encodeBytes .aadd hwf
  | _ => rfl

/-- What the operand words of an opcode spell has that opcode and those operand words (30_encoding.md R51, step 5). -/
theorem encodeOperands_of_decodeOperands {o : Op} {ws : List Word} {i : Instr}
    (h : decodeOperands o ws = .command i) : i.wf ∧ i.op = o ∧ encodeOperands i = ws := by
  have hsmall : 0 < 2 ^ 32 := by decide
  cases o with
  | ainit | aval | next =>
    obtain ⟨rfl, rfl⟩ := decodeF0_eq_command h
    exact ⟨hsmall, rfl, rfl⟩
  | scr0 | scr1 | scr2 | scr3 | noise | seed =>
    obtain ⟨a, rfl, rfl⟩ := decodeF1_eq_command h
    exact ⟨hsmall, rfl, rfl⟩
  | rotl | rotr =>
    obtain ⟨a, b, rfl, rfl⟩ := decodeF2_eq_command h
    exact ⟨hsmall, rfl, rfl⟩
  | hash | aadd =>
    obtain ⟨B, hB, rfl, rfl⟩ := decodeFB_eq_command h
    exact ⟨hB, rfl, rfl⟩

/-- A frame that spells a command begins with an opcode's header word, its operand words spelling the command
(30_encoding.md R51). -/
theorem decode_eq_command {ws : Frame} {i : Instr} (h : decode ws = .command i) :
    ∃ o ops, ws = header o :: ops ∧ decodeOperands o ops = .command i := by
  cases ws with
  | nil => cases h
  | cons w ops =>
    rw [decode] at h
    split at h
    · cases h
    · next o ho =>
      split_ifs at h with hrsv
      exact ⟨o, ops, by rw [← header_of_fields (Op.code_of_ofCode ho).symm (not_not.mp hrsv)], h⟩

/-- Settles O6: the header gives back the opcode, and each format gives back its operands; the payload of `HASH` and `AADD`
by induction on the bytes, four at a time (30_encoding.md R49, R51). -/
theorem decodeOfEncode : Obligations.DecodeOfEncode := by
  intro i hwf
  rw [encode, decode_header_cons]
  exact decodeOperands_encodeOperands hwf

/-- Settles O7: the decoder's checks of the reserved bits, the word count and the pad bytes leave no frame but the encoding;
the payload by induction on its words (30_encoding.md R49, R52). -/
theorem legalFrameIsTheEncoding : Obligations.LegalFrameIsTheEncoding := by
  intro ws i h
  obtain ⟨o, ops, rfl, hops⟩ := decode_eq_command h
  obtain ⟨hwf, rfl, rfl⟩ := encodeOperands_of_decodeOperands hops
  exact ⟨hwf, rfl⟩

/-- The legal frames: a frame spells a command exactly when it is the encoding of that command (30_encoding.md R49). -/
theorem decode_eq_command_iff {ws : Frame} {i : Instr} : decode ws = .command i ↔ i.wf ∧ encode i = ws := by
  refine ⟨legalFrameIsTheEncoding ws i, ?_⟩
  rintro ⟨hwf, rfl⟩
  exact decodeOfEncode i hwf

/-- Settles O11: each frame is the encoding of its command (30_encoding.md R50, R54). -/
theorem framesOfEachFamilyDecode : Obligations.FramesOfEachFamilyDecode := by
  refine ⟨?_, ?_, ?_, ?_, ?_, ?_, ?_, ?_, ?_, ?_, ?_, ?_, ?_⟩ <;> exact decode_eq_command_iff.mpr ⟨by decide, rfl⟩

/-! ### The payload in the frame -/

/-- The frame words of a byte-sequence command: the length word, the count, and the bytes' places (30_encoding.md R48,
R49). -/
theorem payload_slices {ws : Frame} {o : Op} {B : List Byte} (hB : B.length < 2 ^ 32)
    (hws : header o :: encodeBytes B = ws) :
    B.length = (ws.getD 1 0).toNat ∧ ws.length = 2 + (B.length + 3) / 4 ∧
      ∀ i, i < B.length → B.getD i 0 = (ws.getD (2 + i / 4) 0).extractLsb' (8 * (i % 4)) 8 := by
  subst hws
  refine ⟨(Nat.mod_eq_of_lt hB).symm, ?_, fun i hi => ?_⟩
  · rw [encodeBytes, List.length_cons, List.length_cons, pack_length, payloadWords_eq]
    omega
  · rw [encodeBytes, Nat.add_comm 2, List.getD_cons_succ, List.getD_cons_succ]
    exact (wordByte_pack B hi).symm

/-- Settles O9: the frame is the encoding of its command (`legalFrameIsTheEncoding`), whose payload words are packed four
bytes to a word, least significant byte first (30_encoding.md R48, R49). -/
theorem payloadBytesAreFrameSlices : Obligations.PayloadBytesAreFrameSlices := by
  intro ws B h
  obtain h | h := h
  · obtain ⟨hB, hws⟩ := legalFrameIsTheEncoding ws _ h
    exact payload_slices hB hws
  · obtain ⟨hB, hws⟩ := legalFrameIsTheEncoding ws _ h
    exact payload_slices hB hws

/-! ### Opcodes that are not assigned -/

theorem Op.mem_all (o : Op) : o ∈ Op.all := by
  cases o <;> decide

/-- The numbers below 256 that the map assigns are the 13 codes, in some order (30_encoding.md R50). -/
theorem assigned_perm_codes :
    ((List.range 256).filter fun n => Op.ofCode (BitVec.ofNat 8 n) != none).Perm (Op.all.map fun o => o.code.toNat) := by
  refine (List.perm_ext_iff_of_nodup (List.nodup_range.filter _) (by decide)).mpr fun n => ?_
  simp only [List.mem_filter, List.mem_range, List.mem_map, bne_iff_ne, Option.ne_none_iff_exists']
  constructor
  · rintro ⟨hn, o, ho⟩
    exact ⟨o, o.mem_all, by rw [Op.code_of_ofCode ho]; exact Nat.mod_eq_of_lt hn⟩
  · rintro ⟨o, -, rfl⟩
    exact ⟨o.code.isLt, o, by rw [BitVec.ofNat_toNat, BitVec.setWidth_eq, Op.ofCode_code]⟩

/-- Settles O10: 13 of the 256 numbers are assigned, the codes of the 13 opcodes, and the rest is 243 (30_encoding.md R50,
R52). -/
theorem unassignedOpcodesNumber243 : Obligations.UnassignedOpcodesNumber243 := by
  refine ⟨?_, rfl⟩
  have htotal := (List.range 256).length_eq_length_filter_add fun n => Op.ofCode (BitVec.ofNat 8 n) == none
  have hassigned : ((List.range 256).filter fun n => !(Op.ofCode (BitVec.ofNat 8 n) == none)).length = 13 :=
    assigned_perm_codes.length_eq
  rw [List.length_range, hassigned] at htotal
  rw [List.countP_eq_length_filter]
  exact Nat.add_right_cancel htotal.symm

end Sys2Proof
end

section
/-!
PROOFS. The family 30_encoding.md, the responses: every response the unit sends is a frame that R53 allows.
-/

namespace Sys2Proof.Machine

/-- The frame of every response is one R53 allows (30_encoding.md R53). -/
theorem legalResponse_frame (r : Response) : legalResponse r.frame = true := by
  cases r with
  | done => rw [frame_done]; rfl
  | value v => rw [frame_value]; rfl
  | illegal c => cases c <;> decide

/-- The frames an event gets are frames of responses (30_encoding.md R53). -/
theorem legalResponse_of_mem_sentBy {e : HostEvent} {a g : Word} {f : Frame} (h : f ∈ sentBy e a g) :
    legalResponse f = true := by
  cases e with
  | frame ws =>
    obtain rfl := List.mem_singleton.mp h
    exact legalResponse_frame _
  | reset | resetDuring => exact absurd h List.not_mem_nil

/-- An event keeps all sent responses legal, since it only adds such ones (30_encoding.md R53). -/
theorem State.Inv.afterEvent {s : State} (h : s.Inv) (e : HostEvent) : (s.afterEvent e).Inv := by
  intro f hf
  obtain hold | hnew := List.mem_append.mp hf
  · exact h f hold
  · exact legalResponse_of_mem_sentBy hnew

/-- Settles O45: an idle step sends nothing, and an event sends frames of responses only (30_encoding.md R53). -/
theorem stepKeepsResponsesLegal : Obligations.StepKeepsResponsesLegal := by
  intro s t hinv hstep
  obtain rfl | ⟨e, rest, -, rfl⟩ := next_state_cases hstep
  · exact hinv
  · have hrest : (s.withEvents rest).Inv := hinv
    exact hrest.afterEvent e

end Sys2Proof.Machine
end

section
/-!
PROOFS. The family 30_encoding.md, the assembler text of R54: the reader undoes the printer, literal by literal, then
operands, then the line; and the rule's own examples.
-/

namespace Sys2Proof.Machine.Asm

/-! ### Hexadecimal literals -/

/-- Each of the sixteen digits is read back. -/
theorem digitVal_hexDigit : ∀ n < 16, digitVal (hexDigit n) = some n := by
  decide

/-- Each of the sixteen digits is a character of a literal. -/
theorem isWordChar_hexDigit : ∀ n < 16, isWordChar (hexDigit n) = true := by
  decide

/-- The reader takes in the `k` low digits of `n` as the printer writes them, and goes on. -/
theorem digitsFrom_hexDigits (k n : Nat) (cs : List Char) :
    digitsFrom 16 0 (hexDigits k n ++ cs) = digitsFrom 16 (n % 16 ^ k) cs := by
  induction k generalizing n cs with
  | zero => rw [hexDigits, List.nil_append, pow_zero, Nat.mod_one]
  | succ k ih =>
    have hdigit : n % 16 < 16 := Nat.mod_lt n (by decide)
    have hvalue : n / 16 % 16 ^ k * 16 + n % 16 = n % 16 ^ (k + 1) := by
      rw [pow_succ', Nat.mod_mul]
      omega
    rw [hexDigits, List.append_assoc, ih, List.singleton_append, digitsFrom, digitVal_hexDigit _ hdigit]
    simp only [hdigit, if_true, hvalue]

theorem isWordChar_of_mem_hexDigits {k n : Nat} {c : Char} (h : c ∈ hexDigits k n) : isWordChar c = true := by
  induction k generalizing n with
  | zero => exact absurd h List.not_mem_nil
  | succ k ih =>
    obtain h | h := List.mem_append.mp h
    · exact ih h
    · obtain rfl := List.mem_singleton.mp h
      exact isWordChar_hexDigit _ (Nat.mod_lt n (by decide))

/-- A number as `0x` and its `k` low hexadecimal digits: a Word for `k = 8`, a byte for `k = 2`. -/
def hexLiteral (k n : Nat) : List Char := '0' :: 'x' :: hexDigits k n

theorem printWord_eq_hexLiteral (w : Word) : printWord w = hexLiteral 8 w.toNat := rfl

theorem printByte_eq_hexLiteral (b : Byte) : printByte b = hexLiteral 2 b.toNat := rfl

theorem number_hexLiteral {k n : Nat} (h : n < 16 ^ (k + 1)) : number (hexLiteral (k + 1) n) = some n := by
  have hne : hexDigits (k + 1) n ≠ [] := List.append_ne_nil_of_right_ne_nil _ (List.cons_ne_nil _ _)
  have hread := digitsFrom_hexDigits (k + 1) n []
  rw [List.append_nil, Nat.mod_eq_of_lt h] at hread
  rw [hexLiteral, number, digits, if_neg hne, hread, digitsFrom]

theorem isWordChar_of_mem_hexLiteral {k n : Nat} {c : Char} (h : c ∈ hexLiteral k n) : isWordChar c = true := by
  rw [hexLiteral, List.mem_cons, List.mem_cons] at h
  obtain rfl | rfl | h := h
  · rfl
  · rfl
  · exact isWordChar_of_mem_hexDigits h

/-! ### Where a word ends -/

/-- The text does not go on with a character of a word: what stands before it is a word of its own. -/
def StartsNoWord (cs : List Char) : Prop := cs.takeWhile isWordChar = []

theorem takeWhile_word_append {w cs : List Char} (hw : ∀ c ∈ w, isWordChar c = true) (hcs : StartsNoWord cs) :
    (w ++ cs).takeWhile isWordChar = w := by
  rw [List.takeWhile_append_of_pos hw, hcs, List.append_nil]

theorem dropWhile_word_append {w cs : List Char} (hw : ∀ c ∈ w, isWordChar c = true) (hcs : StartsNoWord cs) :
    (w ++ cs).dropWhile isWordChar = cs := by
  have hsplit := List.takeWhile_append_dropWhile (p := isWordChar) (l := cs)
  rw [hcs, List.nil_append] at hsplit
  rw [List.dropWhile_append_of_pos hw, hsplit]

theorem numberBelow_hexLiteral {bound k n : Nat} {cs : List Char} (hbound : n < bound) (hdigits : n < 16 ^ (k + 1))
    (hcs : StartsNoWord cs) : numberBelow bound (hexLiteral (k + 1) n ++ cs) = some (n, cs) := by
  have hw (c : Char) (h : c ∈ hexLiteral (k + 1) n) : isWordChar c = true := isWordChar_of_mem_hexLiteral h
  simp only [numberBelow, takeWhile_word_append hw hcs, dropWhile_word_append hw hcs, number_hexLiteral hdigits, hbound,
    if_true]

/-! ### Operands -/

/-- A printed Word is read back after the blank that the printer puts before it (30_encoding.md R54). -/
theorem wordLiteral_printWord (w : Word) {cs : List Char} (hcs : StartsNoWord cs) :
    wordLiteral (' ' :: (printWord w ++ cs)) = some (w, cs) := by
  have hnumber : numberBelow (2 ^ 32) (printWord w ++ cs) = some (w.toNat, cs) := by
    rw [printWord_eq_hexLiteral]
    exact numberBelow_hexLiteral w.isLt w.isLt hcs
  have hskip : skipSpace (' ' :: (printWord w ++ cs)) = printWord w ++ cs := rfl
  rw [wordLiteral, hskip]
  split
  · next hminus => cases hminus
  · simp only [hnumber, BitVec.ofNat_toNat, BitVec.setWidth_eq]

/-- A printed byte is read back (30_encoding.md R54). -/
theorem byteLiteral_printByte (b : Byte) {cs : List Char} (hcs : StartsNoWord cs) :
    byteLiteral (printByte b ++ cs) = some (b, cs) := by
  have hskip : skipSpace (printByte b ++ cs) = printByte b ++ cs := rfl
  have hnumber : numberBelow 256 (printByte b ++ cs) = some (b.toNat, cs) := by
    rw [printByte_eq_hexLiteral]
    exact numberBelow_hexLiteral b.isLt b.isLt hcs
  simp only [byteLiteral, hskip, hnumber, BitVec.ofNat_toNat, BitVec.setWidth_eq]

theorem startsNoWord_printTail (bs : List Byte) (cs : List Char) : StartsNoWord (printTail bs ++ cs) := by
  cases bs <;> rfl

theorem length_le_length_printTail (bs : List Byte) : bs.length ≤ (printTail bs).length := by
  induction bs with
  | nil => exact Nat.zero_le _
  | cons b bs ih => simp only [printTail, List.length_append, List.length_cons]; omega

/-- The printed rest of a brace list is read back, a byte a round, given fuel for every round and the closing brace. -/
theorem braceTail_printTail (bs : List Byte) (cs : List Char) {fuel : Nat} (hfuel : bs.length < fuel) :
    braceTail fuel (printTail bs ++ cs) = some (bs, cs) := by
  induction bs generalizing fuel with
  | nil =>
    cases fuel with
    | zero => exact absurd hfuel (Nat.not_lt_zero _)
    | succ fuel => rfl
  | cons b bs ih =>
    cases fuel with
    | zero => exact absurd hfuel (Nat.not_lt_zero _)
    | succ fuel =>
      have htext : skipSpace (printTail (b :: bs) ++ cs) = ',' :: ' ' :: (printByte b ++ (printTail bs ++ cs)) := by
        rw [printTail, List.append_assoc]; rfl
      have hbyte : byteLiteral (' ' :: (printByte b ++ (printTail bs ++ cs))) = some (b, printTail bs ++ cs) :=
        byteLiteral_printByte b (startsNoWord_printTail bs cs)
      have hcomma : ',' ≠ rbrace := by decide
      simp only [braceTail, htext, hcomma, if_false, if_true, hbyte, ih (Nat.lt_of_succ_lt_succ hfuel)]

/-- A printed byte list is read back (30_encoding.md R54). -/
theorem byteList_printBytes (bs : List Byte) (cs : List Char) :
    byteList (' ' :: (printBytes bs ++ cs)) = some (bs, cs) := by
  cases bs with
  | nil => rfl
  | cons b bs =>
    have htext : byteList (' ' :: (printBytes (b :: bs) ++ cs)) = braceBody (printByte b ++ (printTail bs ++ cs)) := by
      rw [printBytes, List.append_assoc]; rfl
    have hskip : skipSpace (printByte b ++ (printTail bs ++ cs)) = printByte b ++ (printTail bs ++ cs) := rfl
    have hfuel : bs.length < (printTail bs ++ cs).length + 1 := by
      have := length_le_length_printTail bs
      rw [List.length_append]
      omega
    have hbyte := byteLiteral_printByte b (startsNoWord_printTail bs cs)
    have hfirst : printByte b ++ (printTail bs ++ cs) = '0' :: 'x' :: (hexDigits 2 b.toNat ++ (printTail bs ++ cs)) := rfl
    have hclose : '0' ≠ rbrace := by decide
    rw [hfirst] at hbyte hskip
    simp only [htext, braceBody, hfirst, hskip, hclose, if_false, hbyte, braceTail_printTail bs cs hfuel]

/-- The operand text of a command, after its mnemonic. -/
def printOperands : Instr → List Char
  | .rotl w amt | .rotr w amt => ' ' :: printWord w ++ ',' :: ' ' :: printWord amt
  | .scr0 x | .scr1 x | .scr2 x | .scr3 x | .noise x | .seed x => ' ' :: printWord x
  | .hash bytes | .aadd bytes => ' ' :: printBytes bytes
  | .ainit | .aval | .next => []

theorem printInstr_eq (i : Instr) : printInstr i = mnemonic i.op ++ printOperands i := by
  cases i <;> rfl

/-- One printed Word operand is read back. -/
theorem operand1_printWord (mk : Word → Instr) (x : Word) {cs : List Char} (hcs : StartsNoWord cs) :
    operand1 mk (' ' :: printWord x ++ cs) = some (mk x, cs) := by
  rw [List.cons_append, operand1, wordLiteral_printWord x hcs]

/-- Two printed Word operands are read back. -/
theorem operand2_printWord (mk : Word → Word → Instr) (w amt : Word) {cs : List Char} (hcs : StartsNoWord cs) :
    operand2 mk (' ' :: printWord w ++ ',' :: ' ' :: printWord amt ++ cs) = some (mk w amt, cs) := by
  have hfirst : wordLiteral (' ' :: (printWord w ++ ',' :: ' ' :: (printWord amt ++ cs))) =
      some (w, ',' :: ' ' :: (printWord amt ++ cs)) := wordLiteral_printWord w rfl
  have hcomma : skipSpace (',' :: ' ' :: (printWord amt ++ cs)) = ',' :: ' ' :: (printWord amt ++ cs) := rfl
  simp only [List.cons_append, List.append_assoc, operand2, hfirst, hcomma, wordLiteral_printWord amt hcs]

/-- A printed byte list is read back as an operand. -/
theorem operandBytes_printBytes (mk : List Byte → Instr) (bs : List Byte) (cs : List Char) :
    operandBytes mk (' ' :: printBytes bs ++ cs) = some (mk bs, cs) := by
  rw [List.cons_append, operandBytes, byteList_printBytes]

/-- The printed operands of every command are read back (the table of 30_encoding.md R54). -/
theorem operands_printOperands (i : Instr) {cs : List Char} (hcs : StartsNoWord cs) :
    operands i.op (printOperands i ++ cs) = some (i, cs) := by
  cases i with
  | rotl w amt | rotr w amt => exact operand2_printWord _ w amt hcs
  | scr0 x | scr1 x | scr2 x | scr3 x | noise x | seed x => exact operand1_printWord _ x hcs
  | hash bytes | aadd bytes => exact operandBytes_printBytes _ bytes cs
  | ainit | aval | next => rfl

/-! ### Lines -/

theorem isWordChar_of_mem_mnemonic {o : Op} : ∀ c ∈ mnemonic o, isWordChar c = true := by
  have hall : (mnemonic o).all isWordChar = true := by cases o <;> rfl
  exact List.all_eq_true.mp hall

/-- A mnemonic is found in the opcode map (30_encoding.md R50). -/
theorem find?_mnemonic (o : Op) : (Op.all.find? fun p => mnemonic p == mnemonic o) = some o := by
  cases o <;> rfl

theorem startsNoWord_printOperands (i : Instr) {cs : List Char} (hcs : StartsNoWord cs) :
    StartsNoWord (printOperands i ++ cs) := by
  cases i with
  | ainit | aval | next => exact hcs
  | _ => rfl

/-- Reading a line that begins with a printed command goes on after it. -/
theorem readLine_printInstr (i : Instr) {cs : List Char} (hcs : StartsNoWord cs) :
    readLine (printInstr i ++ cs) = lineEnd i cs := by
  have hskip (text : List Char) : skipSpace (mnemonic i.op ++ text) = mnemonic i.op ++ text := by cases i <;> rfl
  have hcommand (text : List Char) : atEnd (mnemonic i.op ++ text) = false := by cases i <;> rfl
  have hoperands := startsNoWord_printOperands i hcs
  rw [printInstr_eq, List.append_assoc]
  simp only [readLine, hcommand, hskip, takeWhile_word_append isWordChar_of_mem_mnemonic hoperands,
    dropWhile_word_append isWordChar_of_mem_mnemonic hoperands, find?_mnemonic, operands_printOperands i hcs,
    Bool.false_eq_true, if_false]

/-- A printed response is read back (30_encoding.md R54). -/
theorem responseText_printResponse {r : Response} {txt : List Char} (h : printResponse r = some txt) :
    responseText (' ' :: txt) = some (r, []) := by
  cases r with
  | done =>
    obtain rfl := Option.some.inj h
    rfl
  | value v =>
    obtain rfl := Option.some.inj h
    have hskip : skipSpace (' ' :: (['V', 'A', 'L', 'U', 'E', ' '] ++ printWord v)) =
      ['V', 'A', 'L', 'U', 'E'] ++ ' ' :: printWord v := rfl
    have htake : (['V', 'A', 'L', 'U', 'E'] ++ ' ' :: printWord v).takeWhile isWordChar =
      ['V', 'A', 'L', 'U', 'E'] := rfl
    have hdrop : (['V', 'A', 'L', 'U', 'E'] ++ ' ' :: printWord v).dropWhile isWordChar = ' ' :: printWord v := rfl
    have hvalue : wordLiteral (' ' :: printWord v) = some (v, []) := by
      simpa using wordLiteral_printWord v (cs := []) rfl
    have hdone : ['V', 'A', 'L', 'U', 'E'] ≠ ['D', 'O', 'N', 'E'] := by decide
    simp only [responseText, hskip, htake, hdrop, hdone, if_false, if_true, hvalue]
  | illegal c => cases h

/-- A response after its arrow ends the line (30_encoding.md R54). -/
theorem lineEnd_arrow (i : Instr) {r : Response} {txt : List Char} (h : responseText (' ' :: txt) = some (r, [])) :
    lineEnd i ([' ', '-', '>', ' '] ++ txt) = .command i (some r) := by
  have hskip : skipSpace ([' ', '-', '>', ' '] ++ txt) = '-' :: '>' :: ' ' :: txt := rfl
  simp only [lineEnd, hskip, h]
  rfl

/-- Settles O13: the mnemonic selects the row of the opcode map, its operands are read back literal by literal, and so is
the response after the arrow (30_encoding.md R54). -/
theorem assemblerReadsPrintedLines : Obligations.AssemblerReadsPrintedLines := by
  intro i
  refine ⟨?_, fun r txt h => ?_⟩
  · have hread := readLine_printInstr i (cs := []) rfl
    rw [List.append_nil] at hread
    exact hread
  · have hread := readLine_printInstr i (cs := [' ', '-', '>', ' '] ++ txt) rfl
    rw [List.append_assoc, hread, lineEnd_arrow i (responseText_printResponse h)]

/-! ### The examples -/

/-- A line that reads as a command is assembled to its frame. -/
theorem assemble_of_readLine {cs : List Char} {i : Instr} {r : Option Response} (h : readLine cs = .command i r)
    (hwf : i.wf) : assemble cs = some (encode i) := by
  rw [assemble, h]
  exact if_pos hwf

/-- Settles O14: each text reads as its command, whose encoding is the frame (30_encoding.md R54). -/
theorem assemblerExamples : Obligations.AssemblerExamples := by
  refine ⟨?_, ?_, ?_, ?_, ?_⟩
  · exact assemble_of_readLine (i := .rotl 0x12345678 4) (r := none) (by decide) (by decide)
  · exact assemble_of_readLine (i := .hash [0x61, 0x62, 0x63]) (r := none) (by decide) (by decide)
  · exact assemble_of_readLine (i := .aadd []) (r := none) (by decide) (by decide)
  · exact assemble_of_readLine (i := .next) (r := none) (by decide) (by decide)
  · exact assemble_of_readLine (i := .seed 0xFFFFFFFF) (r := none) (by decide) (by decide)

end Sys2Proof.Machine.Asm
end

section
/-!
PROOFS. The family 40_rotation.md. A left rotation is a right one by the complement of its amount, so every law is read
off the bits of the right rotation and the arithmetic of the amounts modulo 32.
-/

namespace Sys2Proof.Machine

/-! ### The rotation as shifts -/

theorem rotl_of_mod_eq_zero {n : Nat} (h : n % 32 = 0) (w : Word) : rotl w n = w := if_pos h

theorem rotr_of_mod_eq_zero {n : Nat} (h : n % 32 = 0) (w : Word) : rotr w n = w := if_pos h

theorem rotl_of_mod_ne_zero {n : Nat} (h : n % 32 ≠ 0) (w : Word) :
    rotl w n = (w <<< (n % 32)) ||| (w >>> (32 - n % 32)) := if_neg h

theorem rotr_of_mod_ne_zero {n : Nat} (h : n % 32 ≠ 0) (w : Word) :
    rotr w n = (w >>> (n % 32)) ||| (w <<< (32 - n % 32)) := if_neg h

/-- Amounts congruent modulo 32 rotate alike (40_rotation.md R64). -/
theorem rotl_congr {m n : Nat} (h : m % 32 = n % 32) (w : Word) : rotl w m = rotl w n := by
  simp only [rotl, h]

/-- Amounts congruent modulo 32 rotate alike (40_rotation.md R64). -/
theorem rotr_congr {m n : Nat} (h : m % 32 = n % 32) (w : Word) : rotr w m = rotr w n := by
  simp only [rotr, h]

/-- A left rotation is the right rotation by the complement of its amount (40_rotation.md R65). -/
theorem rotl_eq_rotr (w : Word) (n : Nat) : rotl w n = rotr w (32 - n % 32) := by
  by_cases h : n % 32 = 0
  · rw [rotl_of_mod_eq_zero h, rotr_of_mod_eq_zero (by omega)]
  · have hmod : (32 - n % 32) % 32 = 32 - n % 32 := by omega
    have hsub : 32 - (32 - n % 32) = n % 32 := by omega
    rw [rotl_of_mod_ne_zero h, rotr_of_mod_ne_zero (by omega), hmod, hsub, BitVec.or_comm]

/-! ### The bits of a rotation -/

/-- A right rotation moves bit `(i + n) mod 32` to bit `i` (40_rotation.md R61). -/
theorem getLsbD_rotr (w : Word) (n : Nat) {i : Nat} (hi : i < 32) :
    (rotr w n).getLsbD i = w.getLsbD ((i + n) % 32) := by
  have hn : n % 32 < 32 := Nat.mod_lt n (by decide)
  rw [rotr_eq_rotateRight, BitVec.getLsbD_rotateRight, Bool.cond_decide]
  split
  · next h => rw [show (i + n) % 32 = n % 32 + i by omega]
  · next h => rw [show (i + n) % 32 = i - (32 - n % 32) by omega, decide_eq_true hi, Bool.true_and]

/-- A left rotation moves bit `i` to bit `(i + n) mod 32` (40_rotation.md R60). -/
theorem getLsbD_rotl (w : Word) (n : Nat) {i : Nat} (hi : i < 32) :
    (rotl w n).getLsbD ((i + n) % 32) = w.getLsbD i := by
  have hback : ((i + n) % 32 + (32 - n % 32)) % 32 = i := by omega
  rw [rotl_eq_rotr, getLsbD_rotr w _ (Nat.mod_lt _ (by decide)), hback]

/-! ### Composition and inverses -/

/-- The amounts of two right rotations add up (40_rotation.md R65). -/
theorem rotr_rotr (w : Word) (a b : Nat) : rotr (rotr w a) b = rotr w (a + b) := by
  apply BitVec.eq_of_getLsbD_eq
  intro i hi
  have hsum : ((i + b) % 32 + a) % 32 = (i + (a + b)) % 32 := by omega
  rw [getLsbD_rotr _ b hi, getLsbD_rotr w a (Nat.mod_lt _ (by decide)), getLsbD_rotr w _ hi, hsum]

/-- The amounts of two left rotations add up (40_rotation.md R65). -/
theorem rotl_rotl (w : Word) (a b : Nat) : rotl (rotl w a) b = rotl w (a + b) := by
  simp only [rotl_eq_rotr, rotr_rotr]
  exact rotr_congr (by omega) w

/-- A right rotation is the left rotation by the complement of its amount (40_rotation.md R65). -/
theorem rotr_eq_rotl (w : Word) (n : Nat) : rotr w n = rotl w (32 - n % 32) := by
  rw [rotl_eq_rotr]
  exact rotr_congr (by omega) w

theorem rotr_rotl (w : Word) (a : Nat) : rotr (rotl w a) a = w := by
  rw [rotl_eq_rotr, rotr_rotr]
  exact rotr_of_mod_eq_zero (by omega) w

theorem rotl_rotr (w : Word) (a : Nat) : rotl (rotr w a) a = w := by
  rw [rotl_eq_rotr, rotr_rotr]
  exact rotr_of_mod_eq_zero (by omega) w

theorem rotl_bijective (a : Nat) : Function.Bijective fun x : Word => rotl x a :=
  Function.bijective_iff_has_inverse.mpr ⟨fun x => rotr x a, fun x => rotr_rotl x a, fun x => rotl_rotr x a⟩

theorem rotr_bijective (a : Nat) : Function.Bijective fun x : Word => rotr x a :=
  Function.bijective_iff_has_inverse.mpr ⟨fun x => rotl x a, fun x => rotl_rotr x a, fun x => rotr_rotl x a⟩

/-! ### The permutation of bit positions -/

/-- Where a left rotation by `a` moves each bit position; a right rotation moves it back (40_rotation.md R65). -/
def shiftPosition (a : Nat) : Equiv.Perm (Fin 32) := Equiv.addRight (Fin.ofNat 32 a)

theorem shiftPosition_val (a : Nat) (j : Fin 32) : (shiftPosition a j).val = (j.val + a) % 32 := by
  simp [shiftPosition, Fin.val_add]

theorem getLsbD_rotl_shiftPosition (x : Word) (a : Nat) (j : Fin 32) :
    (rotl x a).getLsbD (shiftPosition a j) = x.getLsbD j := by
  rw [shiftPosition_val, getLsbD_rotl x a j.isLt]

theorem getLsbD_rotr_shiftPosition_symm (x : Word) (a : Nat) (j : Fin 32) :
    (rotr x a).getLsbD ((shiftPosition a).symm j) = x.getLsbD j := by
  rw [getLsbD_rotr x a (Fin.isLt _), ← shiftPosition_val, Equiv.apply_symm_apply]

/-- Settles O18: a left rotation is a right one by the complement, right rotations add up, and the positions move by one
permutation and back (40_rotation.md R65). -/
theorem rotationsAreInverse : Obligations.RotationsAreInverse := fun w a b =>
  ⟨rotr_rotl w a, rotl_rotr w a, rotr_eq_rotl w a, rotl_rotl w a b, rotl_bijective a, rotr_bijective a,
    ⟨shiftPosition a, fun x j => getLsbD_rotl_shiftPosition x a j⟩,
    ⟨(shiftPosition a).symm, fun x j => getLsbD_rotr_shiftPosition_symm x a j⟩⟩

/-! ### The commands -/

/-- `ROTL` in full, its amount as a number (40_rotation.md R62, R66). -/
theorem exec_rotl (w amt : Word) (s : State) :
    exec (.rotl w amt) s = .next (s.sent [0x00000001, rotl w amt.toNat]) := by
  rw [← rotl_congr (Nat.mod_mod amt.toNat 32), ← rotAmount_eq, ← frame_value]
  rfl

/-- `ROTR` in full, its amount as a number (40_rotation.md R63, R66). -/
theorem exec_rotr (w amt : Word) (s : State) :
    exec (.rotr w amt) s = .next (s.sent [0x00000001, rotr w amt.toNat]) := by
  rw [← rotr_congr (Nat.mod_mod amt.toNat 32), ← rotAmount_eq, ← frame_value]
  rfl

/-- Settles O15: the response carries the rotation by the amount modulo 32, whose two shift forms and bits are known
(40_rotation.md R60, R62). -/
theorem rotlRotatesLeft : Obligations.RotlRotatesLeft := by
  intro w amt s
  exact ⟨rotl w amt.toNat, exec_rotl w amt s, fun h => rotl_of_mod_eq_zero h w, fun h => rotl_of_mod_ne_zero h w,
    fun i hi => getLsbD_rotl w amt.toNat hi⟩

/-- Settles O16: the response carries the rotation by the amount modulo 32, whose two shift forms and bits are known
(40_rotation.md R61, R63). -/
theorem rotrRotatesRight : Obligations.RotrRotatesRight := by
  intro w amt s
  exact ⟨rotr w amt.toNat, exec_rotr w amt s, fun h => rotr_of_mod_eq_zero h w, fun h => rotr_of_mod_ne_zero h w,
    fun i hi => getLsbD_rotr w amt.toNat hi⟩

/-- The operand that carries an integer has its remainder modulo 32, since 32 divides 2^32 (40_rotation.md R64, R66). -/
theorem toNat_ofInt_mod (k : ℤ) : (BitVec.ofInt 32 k).toNat % 32 = (k % 32).toNat % 32 := by
  rw [BitVec.toNat_ofInt]
  omega

/-- Settles O17: an integer operand is known by its remainder modulo 32, and the amounts 0 and 32 have remainder 0
(40_rotation.md R64). -/
theorem rotationAmountIsAnyIntegerModulo32 : Obligations.RotationAmountIsAnyIntegerModulo32 := by
  intro w k s
  refine ⟨?_, ?_, rotl_of_mod_eq_zero (Nat.zero_mod 32) w, rotl_of_mod_eq_zero (Nat.mod_self 32) w,
    rotr_of_mod_eq_zero (Nat.zero_mod 32) w, rotr_of_mod_eq_zero (Nat.mod_self 32) w⟩
  · rw [exec_rotl, rotl_congr (toNat_ofInt_mod k)]
  · rw [exec_rotr, rotr_congr (toNat_ofInt_mod k)]

end Sys2Proof.Machine
end

section
/-!
PROOFS. The family 41_scramble.md. A pair joins its two positions, and bit `j` of a swap network is set by the positions
joined to `j`. In a legal table one position is joined to `j`, its partner: a scramble reads each bit at its partner, and
every law of R73 is read off that.
-/

namespace Sys2Proof.Machine

/-- Two words agree when their bits do, the bit positions as the model has them. -/
theorem word_ext {x y : Word} (h : ∀ j : Fin 32, x.getLsbD j = y.getLsbD j) : x = y :=
  BitVec.eq_of_getLsbD_eq fun i hi => h ⟨i, hi⟩

/-! ### One relocation and one swap -/

/-- A bit of a word masked to one position (41_scramble.md R70). -/
theorem getLsbD_and_shiftLeft_one (x : Word) (s : Fin 32) (i : Nat) :
    (x &&& (1#32 <<< s.val)).getLsbD i = (decide (i = s.val) && x.getLsbD s) := by
  rw [← BitVec.twoPow_eq, BitVec.getLsbD_and, BitVec.getLsbD_twoPow]
  by_cases h : i = s.val
  · simp [h]
  · simp [h, Ne.symm h]

/-- A relocation upwards is a masked shift to the left (41_scramble.md R70). -/
theorem rel_eq_shiftLeft (x : Word) {s d : Fin 32} (h : s < d) :
    rel x s d = (x &&& (1#32 <<< s.val)) <<< (d.val - s.val) := by
  apply word_ext
  intro j
  have hpos : j = d ↔ ¬ j.val < d.val - s.val ∧ j.val - (d.val - s.val) = s.val := by omega
  simp only [getLsbD_rel, BitVec.getLsbD_shiftLeft, getLsbD_and_shiftLeft_one, hpos, Bool.decide_and, decide_not,
    j.isLt, decide_true, Bool.true_and, Bool.and_assoc]

/-- A relocation downwards is a masked shift to the right (41_scramble.md R70). -/
theorem rel_eq_ushiftRight (x : Word) {s d : Fin 32} (h : d < s) :
    rel x s d = (x &&& (1#32 <<< s.val)) >>> (s.val - d.val) := by
  apply word_ext
  intro j
  have hpos : j = d ↔ s.val - d.val + j.val = s.val := by omega
  rw [getLsbD_rel, BitVec.getLsbD_ushiftRight, getLsbD_and_shiftLeft_one, decide_eq_decide.mpr hpos]

/-- Settles O20: one set position for a relocation, two for a swap, and the shifted forms have the same bits
(41_scramble.md R70, R71). -/
theorem relocationAndSwapBits : Obligations.RelocationAndSwapBits := by
  intro x s d hne
  refine ⟨fun j => ?_, rel_eq_shiftLeft x, rel_eq_ushiftRight x, fun j => ?_, BitVec.or_comm _ _⟩
  · rw [getLsbD_rel]
    by_cases hd : j = d <;> simp [hd]
  · rw [getLsbD_swap]
    by_cases hd : j = d
    · simp [hd, hne.symm]
    · by_cases hs : j = s <;> simp [hd, hs, hne]

/-! ### The bits of a network of any pairs -/

/-- A pair of the list joins the two positions, in either order (41_scramble.md R71). -/
def Joins (ps : List (Fin 32 × Fin 32)) (i j : Fin 32) : Prop := (i, j) ∈ ps ∨ (j, i) ∈ ps

/-- Bit `j` of a one-way network is set by the set bits that a pair moves to `j` (41_scramble.md R78). -/
theorem getLsbD_network_oneWay {x : Word} {ps : List (Fin 32 × Fin 32)} {j : Fin 32} :
    (network .oneWay x ps).getLsbD j = true ↔ ∃ i : Fin 32, (i, j) ∈ ps ∧ x.getLsbD i = true := by
  simp only [getLsbD_network, List.any_eq_true, contribution, getLsbD_rel, Bool.and_eq_true, decide_eq_true_eq]
  constructor
  · rintro ⟨⟨p, q⟩, hmem, rfl, hbit⟩
    exact ⟨p, hmem, hbit⟩
  · rintro ⟨i, hmem, hbit⟩
    exact ⟨(i, j), hmem, rfl, hbit⟩

/-- Bit `j` of a swap network is set by the set bits at the positions joined to `j` (41_scramble.md R72). -/
theorem getLsbD_network_swap {x : Word} {ps : List (Fin 32 × Fin 32)} {j : Fin 32} :
    (network .swap x ps).getLsbD j = true ↔ ∃ i : Fin 32, Joins ps i j ∧ x.getLsbD i = true := by
  simp only [getLsbD_network, List.any_eq_true, Prod.exists, getLsbD_swap, Bool.or_eq_true, Bool.and_eq_true,
    decide_eq_true_eq]
  constructor
  · rintro ⟨p, q, hmem, ⟨rfl, hbit⟩ | ⟨rfl, hbit⟩⟩
    · exact ⟨p, .inl hmem, hbit⟩
    · exact ⟨q, .inr hmem, hbit⟩
  · rintro ⟨i, hmem | hmem, hbit⟩
    · exact ⟨i, j, hmem, .inl ⟨rfl, hbit⟩⟩
    · exact ⟨j, i, hmem, .inr ⟨rfl, hbit⟩⟩

/-- Lists of pairs that join the same positions give the same swap network. -/
theorem network_swap_congr {ps qs : List (Fin 32 × Fin 32)} (h : ∀ i j, Joins ps i j ↔ Joins qs i j) (x : Word) :
    network .swap x ps = network .swap x qs := by
  apply word_ext
  intro j
  rw [Bool.eq_iff_iff, getLsbD_network_swap, getLsbD_network_swap]
  simp only [h]

/-- Lists with the same pairs join the same positions. -/
theorem joins_congr {ps qs : List (Fin 32 × Fin 32)} (h : ∀ pq, pq ∈ ps ↔ pq ∈ qs) (i j : Fin 32) :
    Joins ps i j ↔ Joins qs i j := by
  simp only [Joins, h]

/-- Exchanging the positions within some of the pairs joins the same positions (41_scramble.md R71). -/
theorem joins_map_flip (ps : List (Fin 32 × Fin 32)) (flip : Fin 32 × Fin 32 → Bool) (i j : Fin 32) :
    Joins (ps.map fun pq => if flip pq then (pq.2, pq.1) else pq) i j ↔ Joins ps i j := by
  simp only [Joins, List.mem_map, Prod.exists]
  constructor
  · rintro (⟨p, q, hmem, heq⟩ | ⟨p, q, hmem, heq⟩) <;> split at heq <;> cases heq
    · exact .inr hmem
    · exact .inl hmem
    · exact .inl hmem
    · exact .inr hmem
  · rintro (hmem | hmem)
    · by_cases hf : flip (i, j) = true
      · exact .inr ⟨i, j, hmem, if_pos hf⟩
      · exact .inl ⟨i, j, hmem, if_neg hf⟩
    · by_cases hf : flip (j, i) = true
      · exact .inl ⟨j, i, hmem, if_pos hf⟩
      · exact .inr ⟨j, i, hmem, if_neg hf⟩

/-- Settles O24: a swap network is known by the positions that its pairs join, and neither the order of the pairs nor the
order within a pair says anything of these (41_scramble.md R73 item 5). -/
theorem scrambleIgnoresPairOrder : Obligations.ScrambleIgnoresPairOrder := by
  intro ps qs flip x hperm
  exact network_swap_congr (fun i j => (joins_congr (fun _ => hperm.mem_iff) i j).trans (joins_map_flip ps flip i j)) x

/-! ### The partner of a position in a legal table -/

theorem xor_one_involutive : Function.Involutive fun m : Fin 32 => m ^^^ 1 := by
  intro m
  decide +revert

/-- The other slot of a slot's pair: slots `2i` and `2i + 1` make pair `i` (10_state.md R15). -/
def otherSlot : Equiv.Perm (Fin 32) := Function.Involutive.toPerm _ xor_one_involutive

/-- The position that the table of a permutation pairs with `j`. -/
def partner (σ : Equiv.Perm (Fin 32)) : Equiv.Perm (Fin 32) := σ.permCongr otherSlot

theorem partner_apply (σ : Equiv.Perm (Fin 32)) (m : Fin 32) : partner σ (σ m) = σ (otherSlot m) := by
  simp [partner]

theorem otherSlot_of_pair : ∀ i : Fin 16, otherSlot ⟨2 * i.val, by omega⟩ = ⟨2 * i.val + 1, by omega⟩ ∧
    otherSlot ⟨2 * i.val + 1, by omega⟩ = ⟨2 * i.val, by omega⟩ := by
  decide

/-- Every slot is the first or the second of its pair. -/
theorem slot_cases : ∀ m : Fin 32, ∃ i : Fin 16, m = ⟨2 * i.val, by omega⟩ ∨ m = ⟨2 * i.val + 1, by omega⟩ := by
  decide

theorem otherSlot_otherSlot (m : Fin 32) : otherSlot (otherSlot m) = m := xor_one_involutive m

theorem otherSlot_ne : ∀ m, otherSlot m ≠ m := by decide

/-- The partner's partner is the position itself (41_scramble.md R73 item 2). -/
theorem partner_partner (σ : Equiv.Perm (Fin 32)) (j : Fin 32) : partner σ (partner σ j) = j := by
  obtain ⟨m, rfl⟩ := σ.surjective j
  rw [partner_apply, partner_apply, otherSlot_otherSlot]

/-- No position is its own partner (41_scramble.md R73 item 2). -/
theorem partner_ne (σ : Equiv.Perm (Fin 32)) (j : Fin 32) : partner σ j ≠ j := by
  obtain ⟨m, rfl⟩ := σ.surjective j
  rw [partner_apply]
  exact σ.injective.ne (otherSlot_ne m)

/-- The two positions of a pair are partners. -/
theorem partner_of_mem {σ : Equiv.Perm (Fin 32)} {p q : Fin 32} (h : (p, q) ∈ pairsOf σ) :
    partner σ p = q ∧ partner σ q = p := by
  obtain ⟨i, hi⟩ := (mem_pairsOf σ (p, q)).mp h
  obtain ⟨rfl, rfl⟩ := Prod.mk.inj hi
  obtain ⟨hfst, hsnd⟩ := otherSlot_of_pair i
  rw [partner_apply, partner_apply, hfst, hsnd]
  exact ⟨rfl, rfl⟩

/-- A position is joined to its partner and to no other (10_state.md R15). -/
theorem joins_pairsOf_iff {σ : Equiv.Perm (Fin 32)} {i j : Fin 32} : Joins (pairsOf σ) i j ↔ i = partner σ j := by
  constructor
  · rintro (h | h)
    · exact (partner_of_mem h).2.symm
    · exact (partner_of_mem h).1.symm
  · rintro rfl
    obtain ⟨m, rfl⟩ := σ.surjective j
    obtain ⟨n, rfl | rfl⟩ := slot_cases m
    · exact .inr ((mem_pairsOf σ _).mpr ⟨n, by rw [partner_apply, (otherSlot_of_pair n).1]⟩)
    · exact .inl ((mem_pairsOf σ _).mpr ⟨n, by rw [partner_apply, (otherSlot_of_pair n).2]⟩)

/-- No position is the first of a pair and the second of a pair (10_state.md R15). -/
theorem not_mem_pairsOf_of_second {σ : Equiv.Perm (Fin 32)} {p q r : Fin 32} (h : (p, q) ∈ pairsOf σ) : (q, r) ∉ pairsOf σ := by
  intro h'
  obtain ⟨i, hi⟩ := (mem_pairsOf σ _).mp h
  obtain ⟨i', hi'⟩ := (mem_pairsOf σ _).mp h'
  have hslot := σ.injective ((Prod.mk.inj hi).2.symm.trans (Prod.mk.inj hi').1)
  simp only [Fin.mk.injEq] at hslot
  omega

/-! ### The bits of a scramble -/

/-- A scramble reads each bit at its partner (41_scramble.md R72). -/
theorem getLsbD_scramble (c : Config) (k : Fin 4) (x : Word) (j : Fin 32) :
    (scramble c k x).getLsbD j = x.getLsbD (partner (c.scrPerm k) j) := by
  rw [Bool.eq_iff_iff, scramble, scrForm, scrPairs, getLsbD_network_swap]
  simp only [joins_pairsOf_iff, exists_eq_left]

theorem scramble_scramble (c : Config) (k : Fin 4) (x : Word) : scramble c k (scramble c k x) = x := by
  apply word_ext
  intro j
  rw [getLsbD_scramble, getLsbD_scramble, partner_partner]

theorem scramble_bijective (c : Config) (k : Fin 4) : Function.Bijective (scramble c k) :=
  Function.Involutive.bijective (scramble_scramble c k)

theorem scramble_zero (c : Config) (k : Fin 4) : scramble c k 0 = 0 := by
  apply word_ext
  intro j
  rw [getLsbD_scramble, BitVec.ofNat_eq_ofNat, BitVec.getLsbD_zero, BitVec.getLsbD_zero]

theorem scramble_allOnes (c : Config) (k : Fin 4) : scramble c k (BitVec.allOnes 32) = BitVec.allOnes 32 := by
  apply word_ext
  intro j
  simp only [getLsbD_scramble, BitVec.getLsbD_allOnes, Fin.is_lt]

/-- A scramble keeps the number of set bits (41_scramble.md R73 item 3). Lean reads the list of positions as one of numbers,
hence the `map` in the proof; the partner permutes it. -/
theorem countP_scramble (c : Config) (k : Fin 4) (x : Word) :
    ((List.finRange 32).countP fun j => (scramble c k x).getLsbD j) =
      (List.finRange 32).countP fun j => x.getLsbD j := by
  have hperm := (partner (c.scrPerm k)).map_finRange_perm.countP_eq fun j : Fin 32 => x.getLsbD j
  rw [List.countP_map] at hperm
  simp only [bind_pure_comp, List.map_eq_map, List.countP_map, Function.comp_def, getLsbD_scramble] at hperm ⊢
  exact hperm

/-- Settles O22: the permutation is the partner's, an involution without fixed point, and the words' laws are read off the
bits (41_scramble.md R73 items 1 to 3). -/
theorem scrambleIsInvolutivePermutation : Obligations.ScrambleIsInvolutivePermutation := by
  intro c k
  refine ⟨⟨partner (c.scrPerm k), fun j => ⟨partner_ne _ j, partner_partner _ j, fun x => ?_⟩⟩, scramble_scramble c k,
    scramble_bijective c k, scramble_zero c k, scramble_allOnes c k, countP_scramble c k⟩
  rw [getLsbD_scramble, partner_partner]

/-- Settles O23: the operations and the scramble both act bit by bit (41_scramble.md R73 item 4). -/
theorem scrambleCommutesWithBitwise : Obligations.ScrambleCommutesWithBitwise := by
  intro c k x y
  refine ⟨word_ext fun j => ?_, word_ext fun j => ?_, word_ext fun j => ?_⟩
  · simp only [getLsbD_scramble, BitVec.getLsbD_or]
  · simp only [getLsbD_scramble, BitVec.getLsbD_and]
  · simp only [getLsbD_scramble, BitVec.getLsbD_xor]

/-! ### The commands -/

/-- `SCR0` to `SCR3` in full (41_scramble.md R74 to R77). -/
theorem exec_scrCommand (k : Fin 4) (x : Word) (s : State) :
    exec (scrCommand k x) s = .next (s.sent [0x00000001, scramble Config.unit k x]) := by
  rw [← frame_value]
  match k with
  | 0 | 1 | 2 | 3 => rfl

/-- The positions of a network are all different (10_state.md R15). -/
theorem nodup_positions_pairsOf (σ : Equiv.Perm (Fin 32)) : (positions (pairsOf σ)).Nodup :=
  positions_pairsOf σ ▸ List.nodup_ofFn.mpr σ.injective

/-- The pairs of a network name every position (10_state.md R15). -/
theorem exists_pair_at (σ : Equiv.Perm (Fin 32)) (j : Fin 32) : ∃ pq ∈ pairsOf σ, j = pq.1 ∨ j = pq.2 := by
  have hjoins : Joins (pairsOf σ) (partner σ j) j := joins_pairsOf_iff.mpr rfl
  obtain h | h := hjoins
  · exact ⟨_, h, .inr rfl⟩
  · exact ⟨_, h, .inl rfl⟩

/-- A swap sets bits at its two positions only (41_scramble.md R71). -/
theorem getLsbD_swap_of_not_mem {pq : Fin 32 × Fin 32} {j : Fin 32} (h : j ∉ [pq.1, pq.2]) (x : Word) :
    (contribution .swap x pq).getLsbD j = false := by
  obtain ⟨p, q⟩ := pq
  simp only [List.mem_cons, List.not_mem_nil, or_false, not_or] at h
  obtain ⟨hp, hq⟩ := h
  rw [getLsbD_swap, decide_eq_false hp, decide_eq_false hq, Bool.false_and, Bool.false_and, Bool.or_self]

/-- Swaps of pairs without a common position have no set bit in common (41_scramble.md R72). -/
theorem swap_and_swap_of_disjoint {a b : Fin 32 × Fin 32} (h : List.Disjoint [a.1, a.2] [b.1, b.2]) (x : Word) :
    contribution .swap x a &&& contribution .swap x b = 0 := by
  apply word_ext
  intro j
  rw [BitVec.getLsbD_and, BitVec.ofNat_eq_ofNat, BitVec.getLsbD_zero, Bool.and_eq_false_iff]
  by_cases ha : j ∈ [a.1, a.2]
  · exact .inr (getLsbD_swap_of_not_mem (fun hb => h ha hb) x)
  · exact .inl (getLsbD_swap_of_not_mem ha x)

/-- The contributions of a network have no set bit in common (41_scramble.md R72). -/
theorem pairwise_swap_disjoint (σ : Equiv.Perm (Fin 32)) (x : Word) :
    (pairsOf σ).Pairwise fun a b => contribution .swap x a &&& contribution .swap x b = 0 :=
  (List.nodup_flatMap.mp (nodup_positions_pairsOf σ)).2.imp fun h => swap_and_swap_of_disjoint h x

/-- Settles O21: the response carries the scramble, which reads each bit at its partner, and the positions of a network are
all 32, each once (41_scramble.md R72, R74 to R77). -/
theorem scrCommandsExchangeEachPair : Obligations.ScrCommandsExchangeEachPair := by
  intro k x s
  refine ⟨scramble Config.unit k x, exec_scrCommand k x s, rfl, fun pq hpq => ?_, exists_pair_at _,
    pairwise_swap_disjoint _ x⟩
  obtain ⟨hfst, hsnd⟩ := partner_of_mem hpq
  rw [getLsbD_scramble, getLsbD_scramble, hfst, hsnd]
  exact ⟨rfl, rfl⟩

/-! ### The form not taken -/

/-- The one-way form moves the first position's bit to the second (41_scramble.md R78). -/
theorem getLsbD_oneWay_second {σ : Equiv.Perm (Fin 32)} {p q : Fin 32} (h : (p, q) ∈ pairsOf σ) (x : Word) :
    (network .oneWay x (pairsOf σ)).getLsbD q = x.getLsbD p := by
  rw [Bool.eq_iff_iff, getLsbD_network_oneWay]
  constructor
  · rintro ⟨i, hi, hbit⟩
    have hip : i = p := (partner_of_mem hi).2.symm.trans (partner_of_mem h).2
    exact hip ▸ hbit
  · exact fun hbit => ⟨p, h, hbit⟩

/-- The one-way form leaves the first positions zero (41_scramble.md R78). -/
theorem getLsbD_oneWay_first {σ : Equiv.Perm (Fin 32)} {p q : Fin 32} (h : (p, q) ∈ pairsOf σ) (x : Word) :
    (network .oneWay x (pairsOf σ)).getLsbD p = false := by
  rw [Bool.eq_false_iff, ne_eq, getLsbD_network_oneWay]
  rintro ⟨i, hi, -⟩
  exact not_mem_pairsOf_of_second hi h

/-- Two words that the one-way form does not tell apart: a second position's bit is dropped (41_scramble.md R78). -/
theorem oneWay_twoPow_second {σ : Equiv.Perm (Fin 32)} {p q : Fin 32} (h : (p, q) ∈ pairsOf σ) :
    network .oneWay (BitVec.twoPow 32 q) (pairsOf σ) = network .oneWay 0 (pairsOf σ) := by
  apply word_ext
  intro j
  rw [Bool.eq_iff_iff, getLsbD_network_oneWay, getLsbD_network_oneWay]
  refine exists_congr fun i => and_congr_right fun hi => ?_
  have hne : i.val ≠ q.val := fun hiq => not_mem_pairsOf_of_second h (Fin.ext hiq ▸ hi)
  simp [hne]

/-- The one-way form with the positions of every pair exchanged leaves the second positions zero (41_scramble.md R78). -/
theorem getLsbD_oneWay_map_swap {σ : Equiv.Perm (Fin 32)} {p q : Fin 32} (h : (p, q) ∈ pairsOf σ) (x : Word) :
    (network .oneWay x ((pairsOf σ).map Prod.swap)).getLsbD q = false := by
  rw [Bool.eq_false_iff, ne_eq, getLsbD_network_oneWay]
  rintro ⟨i, hi, -⟩
  obtain ⟨pq, hmem, heq⟩ := List.mem_map.mp hi
  obtain rfl := Prod.swap_injective (heq.trans (Prod.swap_prod_mk (a := q) (b := i)).symm)
  exact not_mem_pairsOf_of_second h hmem

/-- Settles O25: the first positions read zero, the word of a second position's bit goes where zero goes, and all bits set
shows the order within a pair (41_scramble.md R78). -/
theorem oneWayFormLosesBits : Obligations.OneWayFormLosesBits := by
  intro c k
  obtain ⟨⟨p, q⟩, hpq, -⟩ := exists_pair_at (c.scrPerm k) 0
  refine ⟨fun x pq h => ⟨getLsbD_oneWay_second h x, getLsbD_oneWay_first h x⟩, fun hinj => ?_,
    BitVec.allOnes 32, fun heq => ?_⟩
  · have hzero : BitVec.twoPow 32 q = 0 := hinj (oneWay_twoPow_second hpq)
    have hbit := BitVec.getLsbD_twoPow (w := 32) q q
    simp [hzero] at hbit
  · have hsecond := getLsbD_oneWay_map_swap hpq (BitVec.allOnes 32)
    rw [← scrPairs, heq, scrPairs, getLsbD_oneWay_second hpq, BitVec.getLsbD_allOnes] at hsecond
    exact decide_eq_false_iff_not.mp hsecond p.isLt

end Sys2Proof.Machine
end

section
/-!
PROOFS. The family 42_noise.md. The noise word is a scramble of the reduced index whose two selectors are remainders of the
index, so the laws of a scramble carry over to the indices that share them.
-/

namespace Sys2Proof.Machine

/-- The noise word, its selectors written as remainders of the index (42_noise.md R80). -/
theorem noise_eq_scramble (c : Config) {i : Word} {t : Fin 32} {k : Fin 4} (ht : t.val = i.toNat % 32)
    (hk : k.val = i.toNat % 4) : noise c i = scramble c k (i - c.noiseTable t) := by
  obtain rfl : t = tableIndex i := Fin.ext (ht.trans (tableIndex_val i).symm)
  obtain rfl : k = funcIndex i := Fin.ext (hk.trans (funcIndex_val i).symm)
  rfl

/-- `NOISE` in full (42_noise.md R81). -/
theorem exec_noise (i : Word) (s : State) : exec (.noise i) s = .next (s.sent [0x00000001, noise Config.unit i]) := by
  rw [← frame_value]
  rfl

/-- Settles O26: `NOISE` and the selected `SCR<k>` answer the same scramble of the reduced index, and 4 divides 32
(42_noise.md R80, R81). -/
theorem noiseSubtractsThenScrambles : Obligations.NoiseSubtractsThenScrambles := by
  intro i s t k ht hk
  refine ⟨?_, ?_, noise Config.unit i, exec_noise i s⟩
  · omega
  · rw [exec_noise, exec_scrCommand, noise_eq_scramble Config.unit ht hk]

/-- Settles O27: such indices have the same network, which is injective, and the same constant to subtract
(42_noise.md R83). -/
theorem noiseInjectiveOnEachTableIndex : Obligations.NoiseInjectiveOnEachTableIndex := by
  intro c i j hmod hnoise
  have htable : (tableIndex i).val = j.toNat % 32 := (tableIndex_val i).trans hmod
  have hfunc : (funcIndex i).val = j.toNat % 4 := by
    rw [funcIndex_val]
    omega
  rw [noise_eq_scramble c (tableIndex_val i) (funcIndex_val i), noise_eq_scramble c htable hfunc] at hnoise
  have hreduced : i - c.noiseTable (tableIndex i) = j - c.noiseTable (tableIndex i) :=
    (scramble_bijective c (funcIndex i)).injective hnoise
  exact sub_left_injective hreduced

end Sys2Proof.Machine
end

section
/-!
PROOFS. The family 43_hash.md. The model's fold is the library's left fold of the mix step, so the concatenation law is the
library's; one more byte is then one more mix step, whose operands are the numbers that the commands take.
-/

namespace Sys2Proof.Machine

/-! ### The fold -/

/-- The model's fold is the library's, so its lemmas apply (43_hash.md R86). -/
theorem fold_eq_foldl (c : Config) (cs : Word) (B : List Byte) : fold c cs B = B.foldl (mix c) cs := by
  induction B generalizing cs with
  | nil => rfl
  | cons b B ih => exact ih (mix c cs b)

theorem fold_append (c : Config) (cs : Word) (A B : List Byte) : fold c cs (A ++ B) = fold c (fold c cs A) B := by
  simp only [fold_eq_foldl, List.foldl_append]

/-- One more byte takes the digest through one mix step (43_hash.md R86). -/
theorem hashOf_append_singleton (c : Config) (B : List Byte) (b : Byte) :
    hashOf c (B ++ [b]) = mix c (hashOf c B) b := fold_append c hashInit B [b]

/-- Settles O31: the equations of the fold are its definition, and the law of a concatenation is that of a left fold
(43_hash.md R86). -/
theorem foldOfConcatenation : Obligations.FoldOfConcatenation := fun c cs _ A B =>
  ⟨rfl, rfl, rfl, fold_append c cs A B⟩

/-! ### The mix step on numbers -/

/-- A byte as a Word, by its number (20_memory.md R32). -/
theorem zext32_eq_ofNat (b : Byte) : zext32 b = BitVec.ofNat 32 b.toNat :=
  (BitVec.ofNat_toNat 32 b).symm

/-- The high half of a byte, by its number (20_memory.md R32). -/
theorem zext32_ushiftRight_four (b : Byte) : zext32 b >>> 4 = BitVec.ofNat 32 (b.toNat / 16) := by
  obtain ⟨-, hshift, -, -⟩ := byteOperandsDoNotWrap b
  rw [← hshift, BitVec.ofNat_toNat, BitVec.setWidth_eq]

/-- The three lines of the mix step in their order, each noise word named and each operand by its number
(43_hash.md R85). -/
theorem mix_eq {c : Config} {cs n1 n2 n3 : Word} {b : Byte}
    (h1 : noise c (BitVec.ofNat 32 (b.toNat / 16) + cs) = n1)
    (h2 : noise c ((cs + n1) + BitVec.ofNat 32 b.toNat * 238) = n2)
    (h3 : noise c (rotr (1057592071 + BitVec.ofNat 32 b.toNat) 15) = n3) :
    mix c cs b = ((cs + n1) + n2) ^^^ n3 := by
  rw [mix, zext32_ushiftRight_four, zext32_eq_ofNat]
  simp only [mulB, addK, rotK, h1, h2, h3]

/-! ### The command -/

/-- `HASH` in full (43_hash.md R87). -/
theorem exec_hash (B : List Byte) (s : State) :
    exec (.hash B) s = .next (s.sent [0x00000001, hashOf Config.unit B]) := by
  rw [← frame_value]
  rfl

/-- Settles O28: the fold over no byte is its initial value (43_hash.md R88). -/
theorem hashOfNoBytesIsTheInitialConstant : Obligations.HashOfNoBytesIsTheInitialConstant := exec_hash []

/-- Settles O29: the last byte of the sequence is one mix step on the digest of the bytes before it, and the noise words and
the rotation of that step are what the commands answer (43_hash.md R85, R87). -/
theorem hashFoldsTheMixStep : Obligations.HashFoldsTheMixStep := by
  intro B b s
  refine ⟨hashOfNoBytesIsTheInitialConstant s, hashOf Config.unit B, _, _, _, _, exec_hash B s, exec_noise _ s,
    exec_noise _ s, exec_rotr _ _ s, exec_noise _ s, ?_⟩
  rw [exec_hash, hashOf_append_singleton, mix_eq rfl rfl rfl]
  rfl

end Sys2Proof.Machine
end

section
/-!
PROOFS. The family 44_accumulator.md. Every event that may stand in a chunk sequence takes `ACC` to its fold over the bytes
that the event adds, so a run takes it to the fold over all of them, by the law of a concatenation.
-/

namespace Sys2Proof.Machine

/-! ### The commands -/

/-- `AINIT` in full (44_accumulator.md R92). -/
theorem exec_ainit (s : State) : exec .ainit s = .next ((s.setAcc hashInit).sent [0x00000000]) := by
  rw [← frame_done]
  rfl

/-- `AADD` in full (44_accumulator.md R93). -/
theorem exec_aadd (B : List Byte) (s : State) :
    exec (.aadd B) s = .next ((s.setAcc (fold Config.unit s.acc B)).sent [0x00000000]) := by
  rw [← frame_done]
  rfl

/-- `AVAL` in full (44_accumulator.md R94). -/
theorem exec_aval (s : State) : exec .aval s = .next (s.sent [0x00000001, s.acc]) := by
  rw [← frame_value]
  rfl

/-! ### Streaming -/

/-- A reset executes no command (70_reset_and_hazards.md R120, R123). -/
theorem resets_eq_false_of_command? {e : HostEvent} {i : Instr} (h : e.command? = some i) : e.resets = false := by
  cases e with
  | frame ws => rfl
  | reset => cases h
  | resetDuring ws => cases h

/-- The bytes that an `AADD` adds are its payload (44_accumulator.md R93). -/
theorem addedBytes_of_aadd {e : HostEvent} {B : List Byte} (h : e.command? = some (.aadd B)) : e.addedBytes = B := by
  rw [HostEvent.addedBytes, h]

/-- An event that leaves `ACC` alone adds no byte: only an `AADD` does, and it writes `ACC` (10_state.md R20). -/
theorem addedBytes_of_keepsAcc {e : HostEvent} (h : e.keepsAcc = true) : e.addedBytes = [] := by
  unfold HostEvent.addedBytes
  split
  next B haadd => simp [HostEvent.keepsAcc, haadd, writesAcc, Instr.op] at h
  next => rfl

/-- `ACC` after an event that leaves it alone or is an `AADD` (44_accumulator.md R93, R95). -/
theorem accAfterEvent_eq_fold {e : HostEvent} (h : e.keepsAcc = true ∨ ∃ B, e.command? = some (.aadd B)) (a : Word) :
    accAfterEvent e a = fold Config.unit a e.addedBytes := by
  obtain hkeeps | ⟨B, haadd⟩ := h
  · rw [accAfterEvent_of_keepsAcc hkeeps, addedBytes_of_keepsAcc hkeeps, fold]
  · simp [accAfterEvent, resets_eq_false_of_command? haadd, haadd, addedBytes_of_aadd haadd, accAfter]

/-- `ACC` after a list of such events (44_accumulator.md R96). -/
theorem afterEvents_acc_eq_fold (s : State) {es : List HostEvent}
    (h : ∀ e ∈ es, e.keepsAcc = true ∨ ∃ B, e.command? = some (.aadd B)) :
    (s.afterEvents es).acc = fold Config.unit s.acc (es.flatMap HostEvent.addedBytes) := by
  induction es generalizing s with
  | nil => rfl
  | cons e es ih =>
    obtain ⟨hhead, htail⟩ := List.forall_mem_cons.mp h
    calc (s.afterEvents (e :: es)).acc
        = fold Config.unit (s.afterEvent e).acc (es.flatMap HostEvent.addedBytes) := ih (s.afterEvent e) htail
      _ = fold Config.unit (fold Config.unit s.acc e.addedBytes) (es.flatMap HostEvent.addedBytes) := by
        rw [State.afterEvent_acc, accAfterEvent_eq_fold hhead]
      _ = fold Config.unit s.acc ((e :: es).flatMap HostEvent.addedBytes) := by
        rw [← fold_append, List.flatMap_cons]

/-- From the initial constant, `AVAL` and `HASH` answer alike once `ACC` is the fold over the hashed bytes: the hash has no
finalisation step (43_hash.md R90). -/
theorem exec_aval_eq_exec_hash {t : State} {B : List Byte} (h : t.acc = fold Config.unit hashInit B) :
    exec .aval t = exec (.hash B) t := by
  rw [exec_aval, exec_hash, h, hashOf]

/-- Settles O36: the run ends with `ACC` the fold over the added bytes, and from the initial constant that is their hash
(44_accumulator.md R96). -/
theorem streamingEqualsOneShot : Obligations.StreamingEqualsOneShot := by
  intro s es hes
  have hacc := afterEvents_acc_eq_fold s hes
  refine ⟨_, runEvents_eq s es, hacc, fun hinit => exec_aval_eq_exec_hash ?_⟩
  rw [State.withEvents_acc, hacc, hinit, hashInit]

/-! ### The single commands -/

/-- Settles O32: `AVAL` answers the value that `AINIT` has just written (44_accumulator.md R92). -/
theorem ainitSetsTheInitialConstant : Obligations.AinitSetsTheInitialConstant := fun s =>
  ⟨_, exec_ainit s, rfl, exec_aval _⟩

/-- Settles O33: the model's fold is the left fold of the mix step (44_accumulator.md R93). -/
theorem aaddFoldsIntoAcc : Obligations.AaddFoldsIntoAcc := by
  intro B s
  rw [exec_aadd, fold_eq_foldl]
  rfl

/-- Settles O34: the fold over no byte is its initial value (44_accumulator.md R95). -/
theorem emptyAaddIsIdentity : Obligations.EmptyAaddIsIdentity := exec_aadd []

/-- Settles O35: this is `AVAL` in full (44_accumulator.md R94). -/
theorem avalReadsAcc : Obligations.AvalReadsAcc := exec_aval

end Sys2Proof.Machine
end

section
/-!
PROOFS. The family 45_generator.md. From `SEED v` every event of a run either draws, which takes `GEN` one step on and answers
it, or leaves `GEN` alone; since none is a reset, the responses stand beside the events one by one, and the draws among them
are the steps from `v`. The host's `nextFloat` is one such draw.
-/

namespace Sys2Proof.Machine

@[simp] theorem State.sent_gen (s : State) (f : Frame) : (s.sent f).gen = s.gen := rfl
@[simp] theorem State.sent_outbox (s : State) (f : Frame) : (s.sent f).outbox = s.outbox ++ [f] := rfl

/-! ### The commands -/

/-- Settles O38: this is `SEED` in full (45_generator.md R100). -/
theorem seedSetsGen : Obligations.SeedSetsGen := by
  intro v s
  rw [← frame_done]
  rfl

/-- `NEXT` in full, its response by its words (45_generator.md R101). -/
theorem exec_next_eq_sent (s : State) :
    exec .next s =
      .next ((s.setGen (genStep Config.unit s.gen)).sent [0x00000001, genStep Config.unit s.gen]) := by
  rw [exec_next, State.respond, frame_value, State.sent]

/-- Settles O39: `NEXT` takes one generator step, which adds the hash of the four bytes of `GEN` (45_generator.md R101). -/
theorem nextAddsHashOfOwnBytes : Obligations.NextAddsHashOfOwnBytes := by
  intro s
  refine ⟨hashOf Config.unit (bytes4 s.gen), exec_hash (bytes4 s.gen) s, ?_⟩
  rw [exec_next_eq_sent, genStep, State.sent, State.setGen]

/-! ### The draws among the events of a run -/

/-- A frame that no reset cuts gets one response (70_reset_and_hazards.md R124). -/
theorem exists_sentBy_eq_singleton {e : HostEvent} (h : e.resets = false) (a g : Word) :
    ∃ f : Frame, sentBy e a g = [f] := by
  cases e with
  | frame ws => exact ⟨_, rfl⟩
  | reset => cases h
  | resetDuring ws => cases h

/-- The draws are the legal frames of `NEXT` (45_generator.md R101). -/
theorem isNext_iff {e : HostEvent} : e.isNext = true ↔ ∃ ws, e = .frame ws ∧ decode ws = .command .next := by
  cases e with
  | frame ws => cases hd : decode ws <;> simp [HostEvent.isNext, HostEvent.command?, hd]
  | reset => simp [HostEvent.isNext, HostEvent.command?]
  | resetDuring ws => simp [HostEvent.isNext, HostEvent.command?]

/-- An event that leaves `GEN` alone is no draw: `NEXT` writes `GEN` (10_state.md R20). -/
theorem isNext_eq_false_of_keepsGen {e : HostEvent} (h : e.keepsGen = true) : e.isNext = false := by
  refine Bool.eq_false_iff.mpr fun hnext => ?_
  have hcmd : e.command? = some .next := by simpa [HostEvent.isNext] using hnext
  simp [HostEvent.keepsGen, hcmd, writesGen, Instr.op] at h

/-- The state after the frame of a command is the one the command leads to. -/
theorem next_afterEvent_of_command {ws : Frame} {i : Instr} (h : decode ws = .command i) (s : State) :
    .next (s.afterEvent (.frame ws)) = exec i s := by
  rw [← eventOutcome_eq, eventOutcome_frame_of_command h]

/-- The state after a draw (45_generator.md R101). -/
theorem afterEvent_of_isNext {e : HostEvent} (h : e.isNext = true) (s : State) :
    s.afterEvent e = (s.setGen (genStep Config.unit s.gen)).sent [0x00000001, genStep Config.unit s.gen] := by
  obtain ⟨ws, rfl, hdec⟩ := isNext_iff.mp h
  exact Host.Outcome.next.inj ((next_afterEvent_of_command hdec s).trans (exec_next_eq_sent s))

/-- An event of such a run is answered once: it draws and is answered with the new `GEN`, or it keeps `GEN`
(45_generator.md R101, R102). -/
theorem draws_or_keepsGen {e : HostEvent} (hreset : e.resets = false) (h : e.keepsGen = true ∨ e.isNext = true)
    (s : State) : ∃ f : Frame, (s.afterEvent e).outbox = s.outbox ++ [f] ∧
      (e.isNext = true ∧ (s.afterEvent e).gen = genStep Config.unit s.gen ∧ f = [0x00000001, genStep Config.unit s.gen] ∨
        e.isNext = false ∧ (s.afterEvent e).gen = s.gen) := by
  obtain hkeeps | hnext := h
  · obtain ⟨f, hf⟩ := exists_sentBy_eq_singleton hreset s.acc s.gen
    exact ⟨f, by rw [State.afterEvent_outbox, hf],
      .inr ⟨isNext_eq_false_of_keepsGen hkeeps, genAfterEvent_of_keepsGen hkeeps s.gen⟩⟩
  · refine ⟨[0x00000001, genStep Config.unit s.gen], ?_, .inl ⟨hnext, ?_, rfl⟩⟩
    · rw [afterEvent_of_isNext hnext, State.sent_outbox, State.setGen_outbox]
    · rw [afterEvent_of_isNext hnext, State.sent_gen, State.setGen_gen]

/-! ### The sequence of draws -/

/-- The responses to the draws among the events `es`, the responses to all of them being `fs`. -/
def nextResponses (es : List HostEvent) (fs : List Frame) : List Frame :=
  ((es.zip fs).filter fun p => p.1.isNext).map Prod.snd

theorem nextResponses_cons_of_isNext {e : HostEvent} (h : e.isNext = true) (es : List HostEvent) (f : Frame)
    (fs : List Frame) : nextResponses (e :: es) (f :: fs) = f :: nextResponses es fs := by
  simp [nextResponses, h]

theorem nextResponses_cons_of_not_isNext {e : HostEvent} (h : e.isNext = false) (es : List HostEvent) (f : Frame)
    (fs : List Frame) : nextResponses (e :: es) (f :: fs) = nextResponses es fs := by
  simp [nextResponses, h]

/-- The responses to `m` draws one after another, each of which takes the generator from its value `g` to `advance g`
(45_generator.md R102). -/
def drawFrames (advance : Word → Word) (g : Word) (m : Nat) : List Frame :=
  (List.range m).map fun n => [0x00000001, advance^[n + 1] g]

/-- The first draw answers one step, and the others go on from there. -/
theorem drawFrames_succ (advance : Word → Word) (g : Word) (m : Nat) :
    drawFrames advance g (m + 1) = [0x00000001, advance g] :: drawFrames advance (advance g) m := by
  simp [drawFrames, List.range_succ_eq_map, Function.comp_def]

/-- Over events that draw or leave `GEN` alone, with no reset, `GEN` takes one step for each draw, and the draws are answered
with these steps in their order, whatever stands between them (45_generator.md R102). -/
theorem draws_afterEvents (s : State) {es : List HostEvent}
    (h : ∀ e ∈ es, e.resets = false ∧ (e.keepsGen = true ∨ e.isNext = true)) :
    (s.afterEvents es).gen = (genStep Config.unit)^[es.countP HostEvent.isNext] s.gen ∧
      ∃ fs : List Frame, (s.afterEvents es).outbox = s.outbox ++ fs ∧
        nextResponses es fs = drawFrames (genStep Config.unit) s.gen (es.countP HostEvent.isNext) := by
  induction es generalizing s with
  | nil => exact ⟨rfl, [], (List.append_nil _).symm, rfl⟩
  | cons e es ih =>
    obtain ⟨⟨hreset, hevent⟩, htail⟩ := List.forall_mem_cons.mp h
    obtain ⟨f, hout, hcase⟩ := draws_or_keepsGen hreset hevent s
    obtain ⟨ihgen, fs, ihout, ihfs⟩ := ih (s.afterEvent e) htail
    have houts : ((s.afterEvent e).afterEvents es).outbox = s.outbox ++ f :: fs := by
      rw [ihout, hout, List.append_assoc, List.singleton_append]
    rw [State.afterEvents_cons]
    obtain ⟨hnext, hgen, rfl⟩ | ⟨hno, hgen⟩ := hcase
    · rw [hgen] at ihgen ihfs
      rw [List.countP_cons_of_pos hnext, Function.iterate_succ_apply]
      exact ⟨ihgen, _, houts, by rw [nextResponses_cons_of_isNext hnext, ihfs, drawFrames_succ]⟩
    · rw [hgen] at ihgen ihfs
      rw [List.countP_cons_of_neg (Bool.eq_false_iff.mp hno)]
      exact ⟨ihgen, _, houts, by rw [nextResponses_cons_of_not_isNext hno, ihfs]⟩

/-- The state after the frame of `SEED v` (45_generator.md R100). -/
theorem afterEvent_seed (s : State) (v : Word) :
    s.afterEvent (.frame (encode (.seed v))) = (s.setGen v).sent [0x00000000] := by
  have hdec : decode (encode (.seed v)) = .command (.seed v) := decodeOfEncode _ (by simp [Instr.payload])
  exact Host.Outcome.next.inj ((next_afterEvent_of_command hdec s).trans (seedSetsGen v s))

/-- Settles O40: the frame of `SEED v` leaves `v` in `GEN` and is answered once, and from there the draws go on
(45_generator.md R102). -/
theorem drawsAfterSeedAreReproducible : Obligations.DrawsAfterSeedAreReproducible := by
  intro s v es hes
  obtain ⟨hgen, fs, hout, hfs⟩ := draws_afterEvents ((s.setGen v).sent [0x00000000]) hes
  have hdrop : (((s.setGen v).sent [0x00000000]).afterEvents es).outbox.drop (s.outbox.length + 1) = fs := by
    rw [hout]
    exact List.drop_left' (by simp)
  refine ⟨_, runEvents_eq s _, ?_⟩
  rw [State.afterEvents_cons, afterEvent_seed, State.withEvents_gen, State.withEvents_outbox, hdrop]
  exact ⟨hgen, hfs⟩

/-! ### The host's floating-point wrapper -/

/-- The unit takes a command frame that is delivered next and executes it (20_memory.md R38). -/
theorem step_deliverNext {i : Instr} (hwf : i.wf) (s : State) : step (s.deliverNext (encode i)) = exec i s :=
  stepRunsTheDecodedCommand _ _ s.inbox i rfl (decodeOfEncode i hwf)

/-- Settles O50: the wrapper delivers the frame of one `NEXT` and rescales the Word of the last response, which is that
`NEXT`'s (45_generator.md R104). -/
theorem nextFloatIsOneNext : Obligations.NextFloatIsOneNext := by
  intro F rescale lo hi s
  refine ⟨_, exec_next_eq_sent s, ?_⟩
  have hwf : Instr.next.wf := by decide
  simp only [nextFloat, step_deliverNext hwf, exec_next_eq_sent, State.sent_outbox, List.getLast?_concat, Option.bind_some,
    resultWord, Option.map_some, State.sent_gen, State.setGen_gen]

/-- The fraction of a Word lies in the unit interval (45_generator.md R104). -/
theorem unitFraction_between (r : Word) : 0 ≤ unitFraction r ∧ unitFraction r ≤ 1 := by
  have hr : r.toNat ≤ 4294967295 := Nat.le_of_lt_succ r.isLt
  refine ⟨by unfold unitFraction; positivity, ?_⟩
  rw [unitFraction, div_le_one (by norm_num)]
  exact_mod_cast hr

theorem unitFraction_zero : unitFraction 0 = 0 := by simp [unitFraction]

theorem unitFraction_allOnes : unitFraction 0xFFFFFFFF = 1 := by
  have h : (0xFFFFFFFF : Word).toNat = 4294967295 := rfl
  norm_num [unitFraction, h]

/-- Both written forms of the linear interpolation agree (45_generator.md R104). -/
theorem exactRescale_eq_weighted (r : Word) (lo hi : ℚ) :
    exactRescale r lo hi = lo * (1 - unitFraction r) + hi * unitFraction r := by
  rw [exactRescale]
  ring

/-- A weight in the unit interval keeps the interpolation between its ends (45_generator.md R104). -/
theorem exactRescale_between (r : Word) {lo hi : ℚ} (h : lo ≤ hi) :
    lo ≤ exactRescale r lo hi ∧ exactRescale r lo hi ≤ hi := by
  obtain ⟨hpos, hone⟩ := unitFraction_between r
  have hwidth : 0 ≤ hi - lo := sub_nonneg.mpr h
  rw [exactRescale]
  exact ⟨by linarith [mul_nonneg hpos hwidth], by linarith [mul_le_mul_of_nonneg_right hone hwidth]⟩

/-- Settles O51: the fraction is 0 and 1 at the end points and between them elsewhere (45_generator.md R104). -/
theorem exactRescaleInterpolates : Obligations.ExactRescaleInterpolates := by
  intro lo hi
  refine ⟨?_, ?_, fun r => ?_⟩
  · rw [exactRescale, unitFraction_zero, zero_mul, add_zero]
  · rw [exactRescale, unitFraction_allOnes, one_mul, add_sub_cancel]
  · obtain ⟨hpos, hone⟩ := unitFraction_between r
    exact ⟨hpos, hone, exactRescale_eq_weighted r lo hi, exactRescale_between r⟩

end Sys2Proof.Machine
end

section
/-!
PROOFS. The family 60_exceptions.md: the causes of an ILLEGAL frame, one for each step of the decoder that can fail, the
answer to such a frame, and the answer to every command.
-/

namespace Sys2Proof

/-! ### The header's fields as numbers -/

/-- Field `OP` is the low byte of the header (30_encoding.md R46). -/
theorem headerOp_toNat (h : Word) : (headerOp h).toNat = h.toNat % 256 :=
  BitVec.extractLsb'_toNat 0 8 h

/-- Field `RSV` is the rest of the header (30_encoding.md R46). -/
theorem headerRsv_eq_zero_iff (h : Word) : headerRsv h = 0#24 ↔ h.toNat / 256 = 0 := by
  have hh := h.isLt
  rw [headerRsv, ← BitVec.toNat_inj, BitVec.extractLsb'_toNat, BitVec.toNat_ofNat, Nat.shiftRight_eq_div_pow]
  omega

/-- The 13 assigned numbers are the codes of the opcodes (30_encoding.md R50). -/
theorem mem_codesAll_iff (b : Byte) : b.toNat ∈ codesAll ↔ ∃ o : Op, b = o.code := by
  constructor
  · have hcodes : ∀ n ∈ codesAll, ∃ o ∈ Op.all, n = o.code.toNat := by decide
    intro hb
    obtain ⟨o, -, ho⟩ := hcodes _ hb
    exact ⟨o, BitVec.eq_of_toNat_eq ho⟩
  · rintro ⟨o, rfl⟩
    cases o <;> decide

/-- Each list of numbers holds the codes of its format (30_encoding.md R50). -/
theorem code_mem_codes_iff (o : Op) :
    (o.code.toNat ∈ codesF0 ↔ o.format = .f0) ∧ (o.code.toNat ∈ codesF1 ↔ o.format = .f1) ∧
      (o.code.toNat ∈ codesF2 ↔ o.format = .f2) ∧ (o.code.toNat ∈ codesFB ↔ o.format = .fb) := by
  cases o <;> decide

/-- The wrong word counts of an assigned opcode, in one inequality; a format FB frame without its length word is too short
whatever that word is taken to be (60_exceptions.md R112). -/
theorem wrongCount_code_iff (o : Op) (h : Word) (t : List Word) :
    wrongCount o.code.toNat (h :: t) ↔ t.length + 1 ≠ o.format.words (t.getD 0 0).toNat := by
  obtain ⟨hf0, hf1, hf2, hfb⟩ := code_mem_codes_iff o
  rw [wrongCount, hf0, hf1, hf2, hfb, List.length_cons, List.getD_cons_succ]
  cases o.format with
  | f0 | f1 | f2 => simp [Format.words]
  | fb =>
    simp only [reduceCtorEq, false_and, false_or, true_and, Format.words, payloadWords_eq]
    omega

/-! ### The causes, step by step -/

/-- Why operand words spell no command, in the order of the checks: their count, then in format FB the pad bytes
(30_encoding.md R51, step 5). -/
def OperandsIllegal (f : Format) (ws : List Word) (c : IllCause) : Prop :=
  (c = .length ∧ ws.length + 1 ≠ f.words (ws.getD 0 0).toNat) ∨
    (c = .pad ∧ f = .fb ∧ ws.length + 1 = f.words (ws.getD 0 0).toNat ∧
      padBad (ws.getD 0 0).toNat (ws.getLastD 0) = true)

theorem decodeF0_eq_illegal_iff (i : Instr) (ws : List Word) (c : IllCause) :
    decodeF0 i ws = .illegal c ↔ OperandsIllegal .f0 ws c := by
  match ws with
  | [] => simp [decodeF0, OperandsIllegal, Format.words]
  | _ :: _ => simp [decodeF0, OperandsIllegal, Format.words, eq_comm (a := c)]

theorem decodeF1_eq_illegal_iff (mk : Word → Instr) (ws : List Word) (c : IllCause) :
    decodeF1 mk ws = .illegal c ↔ OperandsIllegal .f1 ws c := by
  match ws with
  | [_] => simp [decodeF1, OperandsIllegal, Format.words]
  | [] | _ :: _ :: _ => simp [decodeF1, OperandsIllegal, Format.words, eq_comm (a := c)]

theorem decodeF2_eq_illegal_iff (mk : Word → Word → Instr) (ws : List Word) (c : IllCause) :
    decodeF2 mk ws = .illegal c ↔ OperandsIllegal .f2 ws c := by
  match ws with
  | [_, _] => simp [decodeF2, OperandsIllegal, Format.words]
  | [] | [_] | _ :: _ :: _ :: _ => simp [decodeF2, OperandsIllegal, Format.words, eq_comm (a := c)]

/-- A payload of the right count that has no word has no pad byte either, so the word before the payload is never
mistaken for its last. -/
theorem padBad_getLastD {L : Nat} {payload : List Word} (hlen : payload.length = payloadWords L) (d d' : Word) :
    padBad L (payload.getLastD d) = padBad L (payload.getLastD d') := by
  cases payload with
  | nil =>
    have hL : L = 0 := by rw [payloadWords_eq, List.length_nil] at hlen; omega
    simp [padBad, hL]
  | cons w ws => rfl

theorem decodeFB_eq_illegal_iff (mk : List Byte → Instr) (ws : List Word) (c : IllCause) :
    decodeFB mk ws = .illegal c ↔ OperandsIllegal .fb ws c := by
  cases ws with
  | nil =>
    have hcount : 0 + 1 ≠ 2 + payloadWords 0 := by decide
    simp [decodeFB, OperandsIllegal, Format.words, hcount, eq_comm (a := c)]
  | cons l payload =>
    have hcount : (l :: payload).length + 1 = Format.fb.words l.toNat ↔ payload.length = payloadWords l.toNat := by
      rw [List.length_cons, Format.words]
      omega
    simp only [decodeFB, OperandsIllegal, List.getD_cons_zero, List.getLastD_cons, ne_eq, hcount]
    by_cases hlen : payload.length = payloadWords l.toNat
    · rw [padBad_getLastD hlen 0 l]
      cases padBad l.toNat (payload.getLastD l) <;> simp [hlen, eq_comm (a := c)]
    · simp [hlen, eq_comm (a := c)]

/-- Step 5 of 30_encoding.md R51 fails for these two causes only. -/
theorem decodeOperands_eq_illegal_iff (o : Op) (ws : List Word) (c : IllCause) :
    decodeOperands o ws = .illegal c ↔ OperandsIllegal o.format ws c := by
  cases o with
  | ainit | aval | next => exact decodeF0_eq_illegal_iff _ ws c
  | scr0 | scr1 | scr2 | scr3 | noise | seed => exact decodeF1_eq_illegal_iff _ ws c
  | rotl | rotr => exact decodeF2_eq_illegal_iff _ ws c
  | hash | aadd => exact decodeFB_eq_illegal_iff _ ws c

/-- A header whose `OP` is not assigned is rejected first (30_encoding.md R51, step 3). -/
theorem decode_of_unassigned {h : Word} (hop : ∀ o : Op, headerOp h ≠ o.code) (t : List Word) :
    decode (h :: t) = .illegal .opcode := by
  have hnone : Op.ofCode (headerOp h) = none :=
    Option.eq_none_iff_forall_ne_some.mpr fun o ho => hop o (Op.code_of_ofCode ho).symm
  simp only [decode, hnone]

/-- Reserved bits that are not zero are rejected next (30_encoding.md R51, step 4). -/
theorem decode_of_reserved {h : Word} {o : Op} (hop : headerOp h = o.code) (hrsv : headerRsv h ≠ 0) (t : List Word) :
    decode (h :: t) = .illegal .reserved := by
  simp only [decode, hop, Op.ofCode_code, if_pos hrsv]

/-- The pad check, in numbers (60_exceptions.md R112). -/
theorem padBad_iff (L : Nat) (last : Word) :
    padBad L last = true ↔ L % 4 ≠ 0 ∧ last.toNat / 2 ^ (8 * (L % 4)) ≠ 0 := by
  rw [padBad, Bool.and_eq_true, bne_iff_ne, bne_iff_ne, ne_eq (_ >>> _), ← BitVec.toNat_inj, BitVec.toNat_ushiftRight,
    Nat.shiftRight_eq_div_pow]
  rfl

/-- Settles O8: a frame goes as far as the first step of the decoder that fails, and the causes of the later steps are those
of its operand words (60_exceptions.md R112, R114). -/
theorem illegalCausesAndTheirPriority : Obligations.IllegalCausesAndTheirPriority := by
  refine ⟨rfl, fun h t => ?_⟩
  rw [← headerOp_toNat, ne_eq, ← headerRsv_eq_zero_iff]
  by_cases hassigned : ∃ o : Op, headerOp h = o.code
  · have hmem := (mem_codesAll_iff _).mpr hassigned
    obtain ⟨o, hop⟩ := hassigned
    rw [hop] at hmem ⊢
    by_cases hrsv : headerRsv h = 0#24
    · obtain rfl := header_of_fields hop hrsv
      obtain ⟨-, -, -, hfb⟩ := code_mem_codes_iff o
      rw [decode_header_cons]
      simp [decodeOperands_eq_illegal_iff, OperandsIllegal, hmem, hrsv, hfb, wrongCount_code_iff, padBad_iff]
    · simp [decode_of_reserved hop hrsv, hmem, hrsv]
  · have hmem := mt (mem_codesAll_iff _).mp hassigned
    have hfb : (headerOp h).toNat ∉ codesFB := fun hb => hmem (List.mem_append_right _ hb)
    simp [decode_of_unassigned (not_exists.mp hassigned), hmem, hfb]

end Sys2Proof

namespace Sys2Proof.Machine

/-! ### What the unit answers -/

/-- The commands that return no value answer DONE (30_encoding.md R53). -/
theorem answer_eq_done {i : Instr} (h : i.op ∈ [Op.ainit, Op.aadd, Op.seed]) (a g : Word) : answer i a g = .done := by
  cases i with
  | ainit | aadd | seed => rfl
  | _ => simp [Instr.op] at h

/-- Every other command answers a VALUE (30_encoding.md R53). -/
theorem exists_answer_eq_value {i : Instr} (h : i.op ∉ [Op.ainit, Op.aadd, Op.seed]) (a g : Word) :
    ∃ v, answer i a g = .value v := by
  cases i with
  | ainit | aadd | seed => simp [Instr.op] at h
  | _ => exact ⟨_, rfl⟩

/-- Settles O42: the summary `exec_eq` adds the frame of the command's answer, which is DONE or a VALUE (60_exceptions.md
R110, 30_encoding.md R53). -/
theorem everyCommandCompletesWithItsResponse : Obligations.EveryCommandCompletesWithItsResponse := by
  intro i s
  refine ⟨_, (answer i s.acc s.gen).frame, exec_eq i s, rfl, rfl, fun hdone => ?_, fun hvalue => ?_⟩
  · rw [answer_eq_done hdone, frame_done]
  · obtain ⟨v, hv⟩ := exists_answer_eq_value hvalue s.acc s.gen
    exact ⟨v, by rw [hv, frame_value]⟩

/-- Settles O3: of the two things a step can do, taking an event needs one that is pending (60_exceptions.md R118). -/
theorem idleUnitKeepsItsState : Obligations.IdleUnitKeepsItsState := by
  intro s hempty
  obtain ⟨-, hidle⟩ | ⟨e, rest, hin, -⟩ := step_cases s
  · exact hidle
  · exact absurd (hin.symm.trans hempty) (List.cons_ne_nil e rest)

/-- A frame that spells no command is answered with its cause (60_exceptions.md R111). -/
theorem eventOutcome_frame_of_illegal {ws : Frame} {c : IllCause} (h : decode ws = .illegal c) (s : State) :
    eventOutcome (.frame ws) s = .next (answerIllegal c s) := by
  simp only [eventOutcome, h]

/-- Settles O5: the step takes the frame and adds the status word of its cause (60_exceptions.md R111, R112). -/
theorem illegalFrameIsAnsweredAndChangesNothing : Obligations.IllegalFrameIsAnsweredAndChangesNothing := by
  intro s ws rest c hin hdec
  refine ⟨(Response.illegal c).statusWord, ?_, by cases c <;> rfl⟩
  calc step s = .next ((s.withEvents rest).afterEvent (.frame ws)) := step_event hin
    _ = eventOutcome (.frame ws) (s.withEvents rest) := (eventOutcome_eq _ _).symm
    _ = .next (answerIllegal c (s.withEvents rest)) := eventOutcome_frame_of_illegal hdec _

end Sys2Proof.Machine
end

section
/-!
PROOFS. The family 70_reset_and_hazards.md: reset sets both registers and sends nothing, its state has sent no response, and
the commands that use a register work on the values reset gave it, without `AINIT` or `SEED`.
-/

namespace Sys2Proof.Machine

/-! ### Reset -/

/-- Reset as one state: both registers set, all else as it was (70_reset_and_hazards.md R120). -/
theorem applyReset_eq (s : State) :
    applyReset s = { acc := 0xAC3B843B, gen := Config.unit.genInit, inbox := s.inbox, outbox := s.outbox } := rfl

/-- An event that resets does nothing but reset, also when it cuts a command (70_reset_and_hazards.md R120, R123). -/
theorem eventOutcome_of_resets {e : HostEvent} (h : e.resets = true) (s : State) :
    eventOutcome e s = .next (applyReset s) := by
  cases e with
  | frame ws => cases h
  | reset | resetDuring => rfl

/-- The step that takes an event that resets leaves the reset registers and sends nothing (70_reset_and_hazards.md R120,
R123, R124). -/
theorem step_withEvents_of_resets {e : HostEvent} (h : e.resets = true) (s : State) (rest : List HostEvent) :
    step (s.withEvents (e :: rest)) =
      .next { acc := 0xAC3B843B, gen := Config.unit.genInit, inbox := rest, outbox := s.outbox } :=
  calc step (s.withEvents (e :: rest)) = .next ((s.withEvents rest).afterEvent e) := step_event rfl
    _ = eventOutcome e (s.withEvents rest) := (eventOutcome_eq e _).symm
    _ = .next (applyReset (s.withEvents rest)) := eventOutcome_of_resets h _
    _ = _ := by rw [applyReset_eq, State.withEvents_inbox, State.withEvents_outbox]

/-- Settles O2: a reset event and a reset that cuts a command both reset (70_reset_and_hazards.md R120, R123). -/
theorem resetEventRestoresRegistersUnanswered : Obligations.ResetEventRestoresRegistersUnanswered := fun s ws rest =>
  ⟨step_withEvents_of_resets (e := .reset) rfl s rest, step_withEvents_of_resets (e := .resetDuring ws) rfl s rest⟩

/-- Settles O46: the model's reset state has sent no response (assumption log 2). -/
theorem resetResponsesLegal : Obligations.ResetResponsesLegal := List.forall_mem_nil _

/-! ### The first commands after reset -/

/-- A run that begins with the frame of a command goes on from where the command leads (20_memory.md R38). -/
theorem runEvents_encode_cons {i : Instr} (hwf : i.wf) {s t : State} (hexec : exec i s = .next t)
    (es : List HostEvent) : runEvents s (.frame (encode i) :: es) = runEvents t es := by
  have hafter : s.afterEvent (.frame (encode i)) = t :=
    Host.Outcome.next.inj ((next_afterEvent_of_command (decodeOfEncode i hwf) s).trans hexec)
  rw [runEvents_cons, hafter]

/-- A run from reset of `AADD B`, `AVAL`, `HASH B`: `ACC` starts at `HASH_INIT`, so `AVAL` answers the hash of `B`
(70_reset_and_hazards.md R122). -/
theorem runFromReset_aadd_aval_hash {B : List Byte} (hwf : (Instr.aadd B).wf) :
    ∃ t : State, runFromReset [encode (.aadd B), encode .aval, encode (.hash B)] = .next t ∧
      t.outbox = [[0x00000000], [0x00000001, hashOf Config.unit B], [0x00000001, hashOf Config.unit B]] := by
  have hwfHash : (Instr.hash B).wf := hwf
  have hwfAval : Instr.aval.wf := by decide
  simp only [runFromReset, List.map_cons, List.map_nil]
  rw [runEvents_encode_cons hwf (exec_aadd B _), runEvents_encode_cons hwfAval (exec_aval _),
    runEvents_encode_cons hwfHash (exec_hash B _)]
  exact ⟨_, runEvents_nil _, rfl⟩

/-- A run from reset of `NEXT`: `GEN` starts at `GEN_INIT`, so the draw is one step from there (70_reset_and_hazards.md
R122). -/
theorem runFromReset_next :
    ∃ t : State, runFromReset [encode .next] = .next t ∧
      t.outbox = [[0x00000001, genStep Config.unit Config.unit.genInit]] ∧
      t.gen = genStep Config.unit Config.unit.genInit := by
  have hwfNext : Instr.next.wf := by decide
  simp only [runFromReset, List.map_cons, List.map_nil]
  rw [runEvents_encode_cons hwfNext (exec_next_eq_sent _)]
  exact ⟨_, runEvents_nil _, rfl, rfl⟩

/-- Settles O41: the accumulator and the generator work from the values of reset (70_reset_and_hazards.md R122). -/
theorem firstCommandsAfterResetNeedNoSetup : Obligations.FirstCommandsAfterResetNeedNoSetup := by
  intro B hwf
  obtain ⟨t, hrun, hout⟩ := runFromReset_aadd_aval_hash hwf
  exact ⟨⟨t, hrun, hashOf Config.unit B, hout⟩, runFromReset_next⟩

end Sys2Proof.Machine
end
